-- ==== Sys2Proof/Word.lean ====
section
/-! DEFINITION. The word types of the message codec block (00_scope R7, R8; 10_state R20, R27, R32).
All integers are unsigned; bit 0 is the least significant. -/

namespace Sys2Proof

/-- A byte, the addressable unit of the datagram buffer (R7, R50). -/
abbrev Byte := BitVec 8

/-- A scalar operand or result of a command (R98), and the result registers (R32). -/
abbrev Word := BitVec 32

/-- Half a byte: a token length field or an option nibble (R7, R81, R89). -/
abbrev Nibble := BitVec 4

/-- A message type, held as the 2-bit wire value (R22). -/
abbrev MsgType := BitVec 2

/-- A message id (R26). -/
abbrev MsgId := BitVec 16

/-- A byte sequence, lowest address first (R8). -/
abbrev Bytes := List Byte

end Sys2Proof
end

