-- ==== Sys2Proof/Config.lean ====
section
/-! DEFINITION. The parameters of 00_scope R5 and the one free value: the contents of buffer bytes never written since
reset (70_reset R262, log 5). What the wire format fixes is a constant; the sizes the spec leaves OPEN
(93_implementation_defined U16, 92_eei_decisions D10, D11) are a structure every operation that depends on them takes
as its argument `P`, `hardware` unless said otherwise (logs 10, 12). -/

namespace Sys2Proof.Config

/-- `MAX_TKL`: largest legal token length (R5, R23). -/
def maxTkl : Nat := 8

/-- `MAX_OPT_VALUE`: largest option value length (R5, R27). -/
def maxOptValue : Nat := 65804

/-- `MAX_OPT_DELTA`: largest delta one option header can carry (R5, R90). -/
def maxOptDelta : Nat := 65804

/-- `VERSION`: the only legal value of the version field (R5, R21). -/
def version : BitVec 2 := 1

/-- `OPTNUM_W`: width in bits of a stored option number (R5, R27). -/
abbrev optNumW : Nat := 32

/-- The sizes a block is built with (R5). -/
structure Sizes where
  /-- `MAX_BUFFER`: size in bytes of `DBUF` (R30). -/
  maxBuffer : Nat
  /-- `N_OPT`: capacity of the option table (R27). -/
  nOpt : Nat
  /-- `VSTORE_SIZE`: capacity of the value store (R28). -/
  vstoreSize : Nat
  /-- `MAX_OPT_NUMBER_SET`: largest number `ADD_OPTION` accepts (R192). -/
  maxOptNumberSet : Nat
deriving DecidableEq, Repr

/-- The constraints a choice of sizes must keep: the four of R5, and D10's that `MAX_OPT_NUMBER_SET` may be lowered but
not raised. -/
abbrev Sizes.admissible (P : Sizes) : Prop :=
  4 ≤ P.maxBuffer ∧ P.maxBuffer - 4 ≤ P.nOpt ∧ P.maxBuffer - 5 ≤ P.vstoreSize ∧
    P.maxBuffer / 3 * 65804 < 2 ^ optNumW ∧ P.maxOptNumberSet ≤ maxOptDelta

/-- The values this hardware takes (the column "value" of R5). -/
def hardware : Sizes :=
  { maxBuffer := 1024, nOpt := 1024 - 4, vstoreSize := 1024, maxOptNumberSet := 65804 }

/-- FREE VALUE (R262, U1): what byte `a` of `DBUF` holds after the `e`-th reset as long as nothing writes it.
Unspecified, the same at every read, drawn afresh at every reset; nothing here says which value it is. -/
opaque unwrittenByte : Nat → Nat → Byte

end Sys2Proof.Config

namespace Sys2Proof

/-- A stored option number (R27). -/
abbrev OptNum := BitVec Config.optNumW

end Sys2Proof
end

