-- ==== Sys2Proof/Syntax.lean ====
section
/-! DEFINITION. Syntax of the block: the command transaction (30_encoding R98), the instructions (one constructor per
row of spec/opcode_table.json: the 21 commands of R100 and the five wire-format rows), and what an instruction's bits
stand in (a command, the fixed header of a datagram, a byte at an option position). -/

namespace Sys2Proof

/-- A command as the host presents it: `(op, A0, A1, D)` (R98). -/
structure Command where
  op : Byte
  a0 : Word
  a1 : Word
  d  : Bytes
deriving DecidableEq, Repr

/-- The instructions, in the order of the opcode table. A command carries only the operands its rule uses (R98). -/
inductive Instr where
  | msgClear
  | parse (n : Word)
  | serialize (cap : Word)
  | parseTmid (n : Word)
  | isEmpty
  | setType (t : Word)
  | getType
  | setMid (m : Word)
  | getMid
  | setToken (d : Bytes)
  | getToken
  | getCodeClass
  | getCodeDetail
  | setCode (k d : Word)
  | addOption (x : Word) (d : Bytes)
  | optCount
  | optGet (i : Word)
  | setPayload (d : Bytes)
  | getPayload
  | bufWr (a : Word) (d : Bytes)
  | bufRd (a k : Word)
  /-- The fixed header, version 1 (R81): type, token length nibble, code, message id. -/
  | wireHeader (mtype : MsgType) (tkl : Nibble) (code : Byte) (mid : MsgId)
  /-- `0xFF` at an option position (R94). -/
  | wirePayloadMarker
  /-- Delta nibble 15, length nibble `ln` not 15 (R96). -/
  | wireReservedDelta (ln : Nibble)
  /-- Length nibble 15, delta nibble `dn` not 15 (R96). -/
  | wireReservedLength (dn : Nibble)
  /-- An option header byte (R89): delta nibble and length nibble, neither 15. -/
  | wireOption (dn ln : Nibble)
deriving DecidableEq, Repr

/-- Where an instruction's bits stand: presented by the host as a command, at offset 0 of a datagram (four bytes,
offset 0 first), or at an option position of a datagram. -/
inductive Encoded where
  | command (c : Command)
  | header (b0 b1 b2 b3 : Byte)
  | optionPosition (b : Byte)
deriving DecidableEq, Repr

/-- Why bits are no instruction. -/
inductive Reject where
  /-- The opcode byte is not in the table of R100 (R101). -/
  | badCommand
  /-- The version field of the header is not 1 (R82). -/
  | badVersion
deriving DecidableEq, Repr

end Sys2Proof
end

