-- ==== Sys2Proof/Decode.lean ====
section
/-! DEFINITION. The decoder (30_encoding R81 to R89, R96, R99 to R101), total on any bits and rejecting by name, the
encoder written from the same tables, the big-endian helpers (20_memory R51) and the reading of an opcode-table word. -/

namespace Sys2Proof

/-! ### Big-endian integers (R51, R53, R54) -/

/-- The unsigned big-endian integer of a byte sequence. -/
def beNat (bs : Bytes) : Nat := bs.foldl (fun acc b => acc * 256 + b.toNat) 0

/-- The `n`-byte big-endian image of `v`, most significant byte first. -/
def beBytes : Nat → Nat → Bytes
  | 0, _ => []
  | n + 1, v => BitVec.ofNat 8 (v / 256 ^ n) :: beBytes n v

/-! ### Message types (R22, R83) -/

def MsgType.con : MsgType := 0
def MsgType.non : MsgType := 1
def MsgType.ack : MsgType := 2
def MsgType.rst : MsgType := 3

/-! ### Fields of the header and of a code (R81, R85, R87) -/

/-- `byte0[7:6]`. -/
def headerVer (b0 : Byte) : BitVec 2 := b0.extractLsb' 6 2
/-- `byte0[5:4]`. -/
def headerType (b0 : Byte) : MsgType := b0.extractLsb' 4 2
/-- `byte0[3:0]`. -/
def headerTkl (b0 : Byte) : Nibble := b0.extractLsb' 0 4
/-- `Ver << 6 | Type << 4 | TKL`. -/
def headerByte0 (ver : BitVec 2) (t : MsgType) (k : Nibble) : Byte := ver ++ t ++ k
/-- `byte2 << 8 | byte3`. -/
def midOf (b2 b3 : Byte) : MsgId := b2 ++ b3
/-- `mid[15:8]`. -/
def midHi (m : MsgId) : Byte := m.extractLsb' 8 8
/-- `mid[7:0]`. -/
def midLo (m : MsgId) : Byte := m.extractLsb' 0 8
/-- `c[7:5]`. -/
def codeClass (c : Byte) : BitVec 3 := c.extractLsb' 5 3
/-- `c[4:0]`. -/
def codeDetail (c : Byte) : BitVec 5 := c.extractLsb' 0 5
/-- `b[7:4]`, the delta nibble of an option header byte (R89). -/
def highNibble (b : Byte) : Nibble := b.extractLsb' 4 4
/-- `b[3:0]`, the length nibble of an option header byte (R89). -/
def lowNibble (b : Byte) : Nibble := b.extractLsb' 0 4
/-- `Delta(4) | Length(4)`. -/
def optionByte (dn ln : Nibble) : Byte := dn ++ ln

/-! ### Decoding -/

/-- Decode a command by its opcode byte; the operands a command does not use are ignored (R98, R100, R101). -/
def decodeCommand (c : Command) : Except Reject Instr :=
  match c.op.toNat with
  | 0x01 => .ok .msgClear
  | 0x02 => .ok (.parse c.a0)
  | 0x03 => .ok (.serialize c.a0)
  | 0x04 => .ok (.parseTmid c.a0)
  | 0x10 => .ok .isEmpty
  | 0x11 => .ok (.setType c.a0)
  | 0x12 => .ok .getType
  | 0x13 => .ok (.setMid c.a0)
  | 0x14 => .ok .getMid
  | 0x15 => .ok (.setToken c.d)
  | 0x16 => .ok .getToken
  | 0x17 => .ok .getCodeClass
  | 0x18 => .ok .getCodeDetail
  | 0x19 => .ok (.setCode c.a0 c.a1)
  | 0x1A => .ok (.addOption c.a0 c.d)
  | 0x1B => .ok .optCount
  | 0x1C => .ok (.optGet c.a0)
  | 0x1D => .ok (.setPayload c.d)
  | 0x1E => .ok .getPayload
  | 0x20 => .ok (.bufWr c.a0 c.d)
  | 0x21 => .ok (.bufRd c.a0 c.a1)
  | _ => .error .badCommand

/-- Decode the fixed header (R81, R82, R85, R87): only the version is checked here. -/
def decodeHeader (b0 b1 b2 b3 : Byte) : Except Reject Instr :=
  if headerVer b0 = 1 then .ok (.wireHeader (headerType b0) (headerTkl b0) b1 (midOf b2 b3))
  else .error .badVersion

/-- Classify a byte at an option position: the marker first, then delta nibble 15, then length nibble 15 (R96, R124;
the `priority` of the table's rows). -/
def decodeOptionByte (b : Byte) : Instr :=
  if b = 0xFF then .wirePayloadMarker
  else if highNibble b = 15 then .wireReservedDelta (lowNibble b)
  else if lowNibble b = 15 then .wireReservedLength (highNibble b)
  else .wireOption (highNibble b) (lowNibble b)

/-- The decoder. -/
def decode : Encoded → Except Reject Instr
  | .command c => decodeCommand c
  | .header b0 b1 b2 b3 => decodeHeader b0 b1 b2 b3
  | .optionPosition b => .ok (decodeOptionByte b)

/-! ### Encoding -/

/-- The encoder: an unused operand is 0 or the empty sequence. -/
def encode : Instr → Encoded
  | .msgClear => .command ⟨0x01, 0, 0, []⟩
  | .parse n => .command ⟨0x02, n, 0, []⟩
  | .serialize cap => .command ⟨0x03, cap, 0, []⟩
  | .parseTmid n => .command ⟨0x04, n, 0, []⟩
  | .isEmpty => .command ⟨0x10, 0, 0, []⟩
  | .setType t => .command ⟨0x11, t, 0, []⟩
  | .getType => .command ⟨0x12, 0, 0, []⟩
  | .setMid m => .command ⟨0x13, m, 0, []⟩
  | .getMid => .command ⟨0x14, 0, 0, []⟩
  | .setToken d => .command ⟨0x15, 0, 0, d⟩
  | .getToken => .command ⟨0x16, 0, 0, []⟩
  | .getCodeClass => .command ⟨0x17, 0, 0, []⟩
  | .getCodeDetail => .command ⟨0x18, 0, 0, []⟩
  | .setCode k d => .command ⟨0x19, k, d, []⟩
  | .addOption x d => .command ⟨0x1A, x, 0, d⟩
  | .optCount => .command ⟨0x1B, 0, 0, []⟩
  | .optGet i => .command ⟨0x1C, i, 0, []⟩
  | .setPayload d => .command ⟨0x1D, 0, 0, d⟩
  | .getPayload => .command ⟨0x1E, 0, 0, []⟩
  | .bufWr a d => .command ⟨0x20, a, 0, d⟩
  | .bufRd a k => .command ⟨0x21, a, k, []⟩
  | .wireHeader t k code mid => .header (headerByte0 1 t k) code (midHi mid) (midLo mid)
  | .wirePayloadMarker => .optionPosition 0xFF
  | .wireReservedDelta ln => .optionPosition (optionByte 15 ln)
  | .wireReservedLength dn => .optionPosition (optionByte dn 15)
  | .wireOption dn ln => .optionPosition (optionByte dn ln)

/-! ### Pseudo-commands (R103): fixed expansions into commands for the host's list -/

/-- `LOAD [bytes]`. -/
def loadCommands (d : Bytes) : List Command := [⟨0x20, 0, 0, d⟩]
/-- `NEW_RST mid`: `MSG_CLEAR`, `SET_TYPE RST`, `SET_MID mid`. -/
def newRstCommands (mid : Word) : List Command :=
  [⟨0x01, 0, 0, []⟩, ⟨0x11, MsgType.rst.setWidth 32, 0, []⟩, ⟨0x13, mid, 0, []⟩]
/-- `NEW_ACK mid`: `MSG_CLEAR`, `SET_TYPE ACK`, `SET_MID mid`. -/
def newAckCommands (mid : Word) : List Command :=
  [⟨0x01, 0, 0, []⟩, ⟨0x11, MsgType.ack.setWidth 32, 0, []⟩, ⟨0x13, mid, 0, []⟩]
/-- `FOR_EACH_OPTION`, the count `c` being what its `OPT_COUNT` answers. -/
def forEachOptionCommands (c : Nat) : List Command :=
  ⟨0x1B, 0, 0, []⟩ :: (List.range c).map fun i => ⟨0x1C, BitVec.ofNat 32 i, 0, []⟩

/-! ### Words of the opcode table -/

/-- What a word of the opcode table stands for (log 2): a 32-bit word is the fixed header, byte 0 most significant
(the table's WIRE_HEADER32 note); an 8-bit word that a command row claims is that command, its operands zero and its
byte sequence empty; any other 8-bit word is a byte at an option position. -/
def tableWord (nbits w : Nat) : Option Encoded :=
  if nbits = 32 then
    match beBytes 4 w with
    | [b0, b1, b2, b3] => some (.header b0 b1 b2 b3)
    | _ => none
  else if nbits = 8 then
    let b : Byte := BitVec.ofNat 8 w
    match decodeCommand ⟨b, 0, 0, []⟩ with
    | .ok _ => some (.command ⟨b, 0, 0, []⟩)
    | .error _ => some (.optionPosition b)
  else none

/-- The instruction the decoder reads from a table word. -/
def decodeTableWord (nbits w : Nat) : Option Instr :=
  match tableWord nbits w with
  | none => none
  | some e =>
    match decode e with
    | .ok i => some i
    | .error _ => none

end Sys2Proof
end

