-- ==== Sys2Proof/Machine/State.lean ====
section
/-! DEFINITION. The state of the block as plain data (10_state R20 to R37), the statuses of commands (60_exceptions
R230), the reasons a step can stop, and the state after reset (R37). -/

namespace Sys2Proof.Machine

/-- The outcomes of a command (R230); the numbers are `Status.code` (Machine/Flags.lean). -/
inductive Status where
  | ok
  | shortHeader
  | badVersion
  | badTokenLength
  | truncatedToken
  | truncatedOption
  /-- Reserved: no rule produces it (40_parse R137). -/
  | truncatedPayload
  | badOptionDelta
  | badOptionLength
  | missingPayloadAfterMarker
  | bufferTooSmall
  | invalidTokenLength
  | optionValueTooLong
  | invalidArgument
  | badCommand
deriving DecidableEq, Repr

/-- One entry of the option table (R27). -/
structure OptEntry where
  num : OptNum
  val : Bytes
deriving DecidableEq, Repr

/-- The message: the registers `MSG` (R20; `MSG.ver` is hard-wired, see `Message.ver`), the option table `OPT` in
insertion order (R27) and the payload `PAY` (R29). -/
structure Message where
  mtype : MsgType
  tkl   : Nibble
  token : Vector Byte 8
  code  : Byte
  mid   : MsgId
  opt   : List OptEntry
  pay   : Bytes
deriving DecidableEq, Repr

/-- The datagram buffer `DBUF` (R30): the bytes written since the last reset, addresses strictly rising, and the
number of that reset, which names the draw an unwritten byte shows (70_reset R262, log 5, log 6). -/
structure Memory where
  epoch : Nat
  cells : List Host.Cell
deriving DecidableEq, Repr

/-- What the block presents when a command completes: `(status, RV0, RV1, data)` (30_encoding R98, 60_exceptions R233). -/
structure Response where
  status : Byte
  rv0    : Word
  rv1    : Word
  data   : Bytes
deriving DecidableEq, Repr

/-- What the host does to the block: issue a command (R233) or apply reset (70_reset R260, R271). `element n k` is the
command `PARSE n` again, fetched by the name of the wire-format row that is its `k`-th element, the header being element
0: the model's own way to run one of those rows by itself. It ends as `PARSE n` ends (log 1). -/
inductive HostEvent where
  | command (c : Command)
  | reset
  | element (n : Word) (k : Nat)
deriving DecidableEq, Repr

/-- The state. -/
structure State where
  /-- `MSG`, `OPT`, `PAY`. -/
  msg      : Message
  /-- `DBUF`. -/
  dbuf     : Memory
  /-- `STATUS` (R31). -/
  status   : Byte
  /-- `RES0` (R32). -/
  res0     : Word
  /-- `RES1` (R32). -/
  res1     : Word
  /-- The response last presented to the host, none since reset (R98, R235, R236, log 4). -/
  response : Option Response
  /-- What the host still has to issue, first one first (R234, R271, log 3). -/
  host     : List HostEvent
deriving DecidableEq, Repr

/-- Why the machine stops with a fault. -/
inductive Fault where
  /-- `InvariantViolation` (00_scope R11.5, 41_serialize R160): raised by `SERIALIZE` for a delta between sorted
  options above 65804. Safe: no command sequence reaches such a state and nothing is said of what would happen. -/
  | invariantViolation
deriving DecidableEq, Repr

/-- Why an instruction has no meaning. -/
inductive Refusal where
  /-- Raised by no arm of this model (every row has its meaning). Safe. -/
  | notModelled (mnemonic : String)
  /-- Raised by the five wire-format rows where no `PARSE` stands at their position: a wire element has a meaning only
  inside a datagram (40_parse R130). `step` never runs one elsewhere. Safe (log 13). -/
  | wireElementOutsideParse
deriving DecidableEq, Repr

/-- The cleared message (43_helpers R181): type CON, no token, code 0.00, message id 0, no options, no payload. -/
def Message.cleared : Message :=
  { mtype := 0, tkl := 0, token := Vector.replicate 8 0, code := 0, mid := 0, opt := [], pay := [] }

/-- The state after reset (R37, 70_reset R261): the message cleared, `STATUS`, `RES0`, `RES1` zero, nothing written to
`DBUF`. The model's own fields: no response yet, nothing pending from the host, draw number 0 (DESIGN CHOICE, logs 3,
4, 5). -/
def State.reset : State :=
  { msg := Message.cleared, dbuf := { epoch := 0, cells := [] }, status := 0, res0 := 0, res1 := 0,
    response := none, host := [] }

end Sys2Proof.Machine
end

