-- ==== Sys2Proof/Machine/Flags.lean ====
section
/-! DEFINITION. The block has no flags or condition codes (10_state R36); its outcome codes are the statuses of
60_exceptions R230. Here too: the code classification of R34 and the hard-wired version register (R21). -/

namespace Sys2Proof.Machine

/-- The 8-bit status codes (R230). -/
def Status.code : Status → Byte
  | .ok => 0x00
  | .shortHeader => 0x01
  | .badVersion => 0x02
  | .badTokenLength => 0x03
  | .truncatedToken => 0x04
  | .truncatedOption => 0x05
  | .truncatedPayload => 0x06
  | .badOptionDelta => 0x07
  | .badOptionLength => 0x08
  | .missingPayloadAfterMarker => 0x09
  | .bufferTooSmall => 0x10
  | .invalidTokenLength => 0x11
  | .optionValueTooLong => 0x12
  | .invalidArgument => 0x20
  | .badCommand => 0x21

/-- `MSG.ver` reads as 1 whatever the message; nothing writes it (R21). -/
def Message.ver (_ : Message) : BitVec 2 := Config.version

/-- The classes of codes (R34). -/
inductive CodeKind where
  | empty
  | request
  | response
  | invalid
deriving DecidableEq, Repr

/-- `CodeKind(c)` (R34): a function for the host's reasoning; no command evaluates it (R25, R133). -/
def codeKind (c : Byte) : CodeKind :=
  if codeClass c = 0 then (if codeDetail c = 0 then .empty else .request)
  else if codeClass c = 2 ∨ codeClass c = 4 ∨ codeClass c = 5 then .response
  else .invalid

end Sys2Proof.Machine
end

