-- ==== Sys2Proof/Machine/Ops.lean ====
section
/-! DEFINITION. The shared operations: the datagram buffer (20_memory R53 to R55), the byte cursor over it (R56 to
R59), the completion of a command with `OK` (60_exceptions R235) and with an error, the block's only "trap entry"
(R236), and the reset event (70_reset R260, R261). -/

namespace Sys2Proof.Machine

/-! ### The datagram buffer -/

/-- The byte a list of cells holds at an address. -/
def cellAt : List Host.Cell → Nat → Option Byte
  | [], _ => none
  | (b, v) :: rest, a => if a = b then some v else cellAt rest a

/-- The cells after storing `v` at `a`, addresses still rising. -/
def setCell : List Host.Cell → Nat → Byte → List Host.Cell
  | [], a, v => [(a, v)]
  | (b, w) :: rest, a, v =>
    if a < b then (a, v) :: (b, w) :: rest
    else if a = b then (a, v) :: rest
    else (b, w) :: setCell rest a v

/-- The byte written to an address since the last reset; an unlisted address holds no written byte. -/
def Memory.written (m : Memory) (a : Nat) : Option Byte := cellAt m.cells a

/-- What reading an address shows: the byte last written, else the draw of the last reset (R262). -/
def Memory.read (m : Memory) (a : Nat) : Byte :=
  match m.written a with
  | some v => v
  | none => Config.unwrittenByte m.epoch a

/-- Store one byte. -/
def Memory.set (m : Memory) (a : Nat) (v : Byte) : Memory := { m with cells := setCell m.cells a v }

/-- `MemReadBytes(a, k)` (R55). -/
def Memory.readBytes (m : Memory) (a : Nat) : Nat → Bytes
  | 0 => []
  | k + 1 => m.read a :: m.readBytes (a + 1) k

/-- `MemWriteBytes(a, s)` (R55). -/
def Memory.writeBytes (m : Memory) (a : Nat) : Bytes → Memory
  | [] => m
  | b :: bs => (m.set a b).writeBytes (a + 1) bs

/-- `MemRead(a, n)` (R53): big-endian. -/
def Memory.readInt (m : Memory) (a n : Nat) : Nat := beNat (m.readBytes a n)

/-- `MemWrite(a, n, v)` (R54): big-endian. -/
def Memory.writeInt (m : Memory) (a n v : Nat) : Memory := m.writeBytes a (beBytes n v)

/-- The canonical form: addresses strictly rising, all inside `DBUF` (R50). An unlisted address holds no written byte,
so no listed entry equals what an unlisted address holds (log 6). -/
abbrev Memory.wf (m : Memory) (P : Config.Sizes := Config.hardware) : Prop :=
  m.cells.Pairwise (fun x y => x.1 < y.1) ∧ ∀ c ∈ m.cells, c.1 < P.maxBuffer

/-! ### The byte cursor: the bounds check comes first, `none` where it fails -/

/-- The byte cursor `CUR` and its limit `LIM` (20_memory R56): local to a command, never held in the state (10_state
R35). -/
structure Cursor where
  cur : Nat
  lim : Nat
deriving DecidableEq, Repr

/-- `Rd(n)` (R57). -/
def rd (m : Memory) (c : Cursor) (n : Nat) : Option (Nat × Cursor) :=
  if c.lim < c.cur + n then none
  else some (m.readInt c.cur n, { c with cur := c.cur + n })

/-- `RdBytes(k)` (R58). -/
def rdBytes (m : Memory) (c : Cursor) (k : Nat) : Option (Bytes × Cursor) :=
  if c.lim < c.cur + k then none
  else some (m.readBytes c.cur k, { c with cur := c.cur + k })

/-- `Wr(n, v)` (R59). -/
def wr (m : Memory) (c : Cursor) (n v : Nat) : Option (Memory × Cursor) :=
  if c.lim < c.cur + n then none
  else some (m.writeInt c.cur n v, { c with cur := c.cur + n })

/-- `WrBytes(s)` (R59). -/
def wrBytes (m : Memory) (c : Cursor) (s : Bytes) : Option (Memory × Cursor) :=
  if c.lim < c.cur + s.length then none
  else some (m.writeBytes c.cur s, { c with cur := c.cur + s.length })

/-! ### Completion of a command -/

/-- A command completes: `STATUS`, `RES0`, `RES1` take the outcome and the response is presented (R31, R32, R98). -/
def State.complete (s : State) (st : Status) (r0 r1 : Word) (data : Bytes) : State :=
  { s with
    status := st.code, res0 := r0, res1 := r1,
    response := some { status := st.code, rv0 := r0, rv1 := r1, data := data } }

/-- `return (r0, r1, data)` (R235). -/
def State.returnOk (s : State) (r0 r1 : Word) (data : Bytes) : State := s.complete .ok r0 r1 data

/-- `raise X` (R236): both results 0, no data; the rest of the state as it stands. -/
def State.raise (s : State) (x : Status) : State := s.complete x 0 0 []

/-- The end of a successful parse (40_parse R128): the decoded message replaces the current one. -/
def State.parseOk (s : State) (m : Message) : State :=
  { s with msg := m }.returnOk 0 0 []

/-- The end of a parse with a `ParseError` (R129, R236): the message is cleared. -/
def State.parseError (s : State) (x : Status) : State :=
  { s with msg := Message.cleared }.raise x

/-- The end of a parse, by what it came to. -/
def State.endParse (s : State) : Except Status Message → State
  | .error x => s.parseError x
  | .ok m => s.parseOk m

/-! ### Reset -/

/-- The reset event (70_reset R260 to R262): every register to its reset value, nothing of `DBUF` written, its bytes
a fresh draw. What the host has still to issue stays pending (log 7). -/
def State.afterReset (s : State) : State :=
  { State.reset with dbuf := { epoch := s.dbuf.epoch + 1, cells := [] }, host := s.host }

end Sys2Proof.Machine
end

