-- ==== Sys2Proof/Machine/Buffer.lean ====
section
/-! DEFINITION. The datagram buffer access commands (44_buffer R220, R221). The range check never forms a sum, so it
cannot overflow. -/

namespace Sys2Proof.Machine

/-- Does a range of `k` bytes at offset `a` lie inside `DBUF` (R220, R221)? -/
def rangeFits (a : Word) (k : Nat) (P : Config.Sizes := Config.hardware) : Bool :=
  decide (a.toNat ≤ P.maxBuffer) && decide (k ≤ P.maxBuffer - a.toNat)

/-- `BUF_WR a, D` (R220): the whole range or nothing. -/
def execBufWr (a : Word) (d : Bytes) (s : State) (P : Config.Sizes := Config.hardware) :
    Host.Outcome State Fault Refusal :=
  if rangeFits a d.length P then
    .next ({ s with dbuf := s.dbuf.writeBytes a.toNat d }.returnOk 0 0 [])
  else .next (s.raise .invalidArgument)

/-- `BUF_RD a, k` (R221). -/
def execBufRd (a k : Word) (s : State) (P : Config.Sizes := Config.hardware) : Host.Outcome State Fault Refusal :=
  if rangeFits a k.toNat P then .next (s.returnOk 0 0 (s.dbuf.readBytes a.toNat k.toNat))
  else .next (s.raise .invalidArgument)

end Sys2Proof.Machine
end

