-- ==== Sys2Proof/Machine/Operands.lean ====
section
/-! DEFINITION. Operand forms: the nibble-and-extension values of the wire format (30_encoding R90), the token
register image (43_helpers R187, 40_parse R128), code assembly (R191), and the use of the value store (10_state R28). -/

namespace Sys2Proof.Machine

/-- `ExtLen(x)`: how many extension bytes follow nibble `x` (R90); nibble 15 is reserved and is refused before this is
asked (40_parse R124). -/
def extLen (x : Nibble) : Nat :=
  if x.toNat ≤ 12 then 0 else if x.toNat = 13 then 1 else 2

/-- `ExtVal(x, e)`: the value of nibble `x` with extension `e` (R90). -/
def extVal (x : Nibble) (e : Nat) : Nat :=
  if x.toNat ≤ 12 then x.toNat else if x.toNat = 13 then e + 13 else e + 269

/-- `Nib(v)` (R90). -/
def nib (v : Nat) : Nibble :=
  if v ≤ 12 then BitVec.ofNat 4 v else if v ≤ 268 then 13 else 14

/-- `Ext(v)` (R90). -/
def ext (v : Nat) : Bytes :=
  if v ≤ 12 then [] else if v ≤ 268 then beBytes 1 (v - 13) else beBytes 2 (v - 269)

/-- The token register holding a token: its bytes first, zero above (R24, R187). -/
def tokenRegister (d : Bytes) : Vector Byte 8 := Vector.ofFn fun i => d.getD i.val 0

/-- The token: bytes `0 .. tkl-1` of the register (R24, R188). -/
def Message.tokenBytes (m : Message) : Bytes := m.token.toList.take m.tkl.toNat

/-- `k << 5 | d` (R191). -/
def codeOf (k d : Word) : Byte := ((k <<< 5) ||| d).setWidth 8

/-- The sum of the option value lengths. -/
def optBytes (opt : List OptEntry) : Nat := (opt.map fun e => e.val.length).sum

/-- What the message takes of the value store (R28). -/
def Message.storeUse (m : Message) : Nat := optBytes m.opt + m.pay.length

/-- A scalar operand as an option number (R192). -/
def optNumOfWord (x : Word) : OptNum := x.setWidth Config.optNumW

/-- An option number as a scalar result (R194). -/
def optNumWord (x : OptNum) : Word := x.setWidth 32

/-- A length or count as a scalar result (R98). -/
def lenWord (n : Nat) : Word := BitVec.ofNat 32 n

end Sys2Proof.Machine
end

