-- ==== Sys2Proof/Machine/Messages.lean ====
section
/-! DEFINITION. The message access commands (43_helpers R180 to R196). A setter checks its operands on the whole
32-bit value and changes nothing where a bound is violated (R180); a getter changes only `STATUS`, `RES0`, `RES1`. -/

namespace Sys2Proof.Machine

/-- A setter's shape (R180 a, b): `InvalidArgument` and nothing changed, or the new message and `OK`. -/
def setter (ok : Bool) (m : Message) (s : State) : Host.Outcome State Fault Refusal :=
  if ok then .next ({ s with msg := m }.returnOk 0 0 []) else .next (s.raise .invalidArgument)

/-- A getter's shape (R180 c). -/
def getter (r0 r1 : Word) (data : Bytes) (s : State) : Host.Outcome State Fault Refusal :=
  .next (s.returnOk r0 r1 data)

/-- `MSG_CLEAR` (R181). -/
def execMsgClear (s : State) : Host.Outcome State Fault Refusal :=
  setter true Message.cleared s

/-- `IS_EMPTY` (R182): the code alone decides. -/
def execIsEmpty (s : State) : Host.Outcome State Fault Refusal :=
  getter (if s.msg.code = 0 then 1 else 0) 0 [] s

/-- `SET_TYPE t` (R183). -/
def execSetType (t : Word) (s : State) : Host.Outcome State Fault Refusal :=
  setter (decide (t.toNat ≤ 3)) { s.msg with mtype := t.setWidth 2 } s

/-- `GET_TYPE` (R184). -/
def execGetType (s : State) : Host.Outcome State Fault Refusal :=
  getter (s.msg.mtype.setWidth 32) 0 [] s

/-- `SET_MID m` (R185). -/
def execSetMid (m : Word) (s : State) : Host.Outcome State Fault Refusal :=
  setter (decide (m.toNat ≤ 0xFFFF)) { s.msg with mid := m.setWidth 16 } s

/-- `GET_MID` (R186). -/
def execGetMid (s : State) : Host.Outcome State Fault Refusal :=
  getter (s.msg.mid.setWidth 32) 0 [] s

/-- `SET_TOKEN D` (R187). -/
def execSetToken (d : Bytes) (s : State) : Host.Outcome State Fault Refusal :=
  setter (decide (d.length ≤ Config.maxTkl))
    { s.msg with tkl := BitVec.ofNat 4 d.length, token := tokenRegister d } s

/-- `GET_TOKEN` (R188). -/
def execGetToken (s : State) : Host.Outcome State Fault Refusal :=
  getter (s.msg.tkl.setWidth 32) 0 s.msg.tokenBytes s

/-- `GET_CODE_CLASS` (R189). -/
def execGetCodeClass (s : State) : Host.Outcome State Fault Refusal :=
  getter ((codeClass s.msg.code).setWidth 32) 0 [] s

/-- `GET_CODE_DETAIL` (R190). -/
def execGetCodeDetail (s : State) : Host.Outcome State Fault Refusal :=
  getter ((codeDetail s.msg.code).setWidth 32) 0 [] s

/-- `SET_CODE k, d` (R191). -/
def execSetCode (k d : Word) (s : State) : Host.Outcome State Fault Refusal :=
  setter (decide (k.toNat ≤ 7) && decide (d.toNat ≤ 31)) { s.msg with code := codeOf k d } s

/-- `ADD_OPTION x, D` (R192): the four checks, all with the one status, then the entry appended. -/
def execAddOption (x : Word) (d : Bytes) (s : State) (P : Config.Sizes := Config.hardware) :
    Host.Outcome State Fault Refusal :=
  setter
    (decide (x.toNat ≤ P.maxOptNumberSet) && decide (d.length ≤ Config.maxOptValue)
      && decide (s.msg.opt.length ≠ P.nOpt) && decide (s.msg.storeUse + d.length ≤ P.vstoreSize))
    { s.msg with opt := s.msg.opt ++ [{ num := optNumOfWord x, val := d }] } s

/-- `OPT_COUNT` (R193). -/
def execOptCount (s : State) : Host.Outcome State Fault Refusal :=
  getter (lenWord s.msg.opt.length) 0 [] s

/-- `OPT_GET i` (R194). -/
def execOptGet (i : Word) (s : State) : Host.Outcome State Fault Refusal :=
  match s.msg.opt[i.toNat]? with
  | none => .next (s.raise .invalidArgument)
  | some e => getter (optNumWord e.num) (lenWord e.val.length) e.val s

/-- `SET_PAYLOAD D` (R195): the old payload does not count against the store. -/
def execSetPayload (d : Bytes) (s : State) (P : Config.Sizes := Config.hardware) : Host.Outcome State Fault Refusal :=
  setter (decide (optBytes s.msg.opt + d.length ≤ P.vstoreSize)) { s.msg with pay := d } s

/-- `GET_PAYLOAD` (R196). -/
def execGetPayload (s : State) : Host.Outcome State Fault Refusal :=
  getter (lenWord s.msg.pay.length) 0 s.msg.pay s

end Sys2Proof.Machine
end

