-- ==== Sys2Proof/Machine/Wire.lean ====
section
/-! DEFINITION. How a datagram is decoded (40_parse R122 to R128, R130): its elements, each one function over the buffer
and the variables of the parse, and the loop over them, which `PARSE` runs (Machine/Parse.lean). Then the meanings of
the wire-format rows: `PARSE` taken up at its element of that name (log 1). `CUR`, `LIM`, `prev` are arguments and
results here, never fields of the state (10_state R35). -/

namespace Sys2Proof.Machine

/-- The variables of a parse at an option position (R124, R130): the cursor, the fields of the header, the token, the
running option number and the options so far. -/
structure OptLoop where
  pos   : Cursor
  mtype : MsgType
  tkl   : Nibble
  code  : Byte
  mid   : MsgId
  tok   : Bytes
  prev  : OptNum
  opts  : List OptEntry
deriving DecidableEq, Repr

/-! ### The elements -/

/-- The rest of phase 1 and phase 2 (R122, R123) for a header of version 1 and `LIM` = `lim`. -/
def headerElement (t : MsgType) (k : Nibble) (code : Byte) (mid : MsgId) (m : Memory) (lim : Nat) :
    Except Status OptLoop :=
  if Config.maxTkl < k.toNat then .error .badTokenLength
  else
    match rdBytes m { cur := 4, lim := lim } k.toNat with
    | none => .error .truncatedToken
    | some (tok, c) =>
      .ok { pos := c, mtype := t, tkl := k, code := code, mid := mid, tok := tok, prev := 0, opts := [] }

/-- The extension of nibble `x` at the cursor and the value it gives (R125). -/
def readExt (m : Memory) (c : Cursor) (x : Nibble) : Option (Nat × Cursor) :=
  if extLen x = 0 then some (extVal x 0, c)
  else
    match rd m c (extLen x) with
    | none => none
    | some (e, c') => some (extVal x e, c')

/-- An option with header byte `dn ln` (R124 to R126): the header byte, the extensions, the value. -/
def optionElement (dn ln : Nibble) (m : Memory) (o : OptLoop) : Except Status OptLoop :=
  if dn = 15 then .error .badOptionDelta
  else if ln = 15 then .error .badOptionLength
  else
    match readExt m { o.pos with cur := o.pos.cur + 1 } dn with
    | none => .error .truncatedOption
    | some (delta, c1) =>
      match readExt m c1 ln with
      | none => .error .truncatedOption
      | some (length, c2) =>
        match rdBytes m c2 length with
        | none => .error .truncatedOption
        | some (val, c3) =>
          let num := o.prev + BitVec.ofNat Config.optNumW delta
          .ok { o with pos := c3, prev := num, opts := o.opts ++ [{ num := num, val := val }] }

/-- The payload behind the marker, to the end of the datagram (R127). -/
def markerElement (m : Memory) (o : OptLoop) : Except Status Bytes :=
  if o.pos.cur + 1 = o.pos.lim then .error .missingPayloadAfterMarker
  else .ok (m.readBytes (o.pos.cur + 1) (o.pos.lim - (o.pos.cur + 1)))

/-- The decoded message (R128). -/
def OptLoop.message (o : OptLoop) (pay : Bytes) : Message :=
  { mtype := o.mtype, tkl := o.tkl, token := tokenRegister o.tok, code := o.code, mid := o.mid, opt := o.opts,
    pay := pay }

/-! ### The loop over the elements -/

/-- What one turn of the option loop leaves: another turn, or the whole message. -/
inductive Turn where
  | more (o : OptLoop)
  | done (m : Message)
deriving DecidableEq, Repr

/-- One turn of the option loop, `CUR < LIM` (R124 to R127): the byte at the option position decides, the marker
tested first (30_encoding R96). -/
def optionTurn (m : Memory) (o : OptLoop) : Except Status Turn :=
  let h := m.read o.pos.cur
  if h = 0xFF then
    match markerElement m o with
    | .error x => .error x
    | .ok pay => .ok (.done (o.message pay))
  else
    match optionElement (highNibble h) (lowNibble h) m o with
    | .error x => .error x
    | .ok o' => .ok (.more o')

/-- The option loop (R124 to R127). The counter starts at `LIM - CUR` and every turn consumes a byte (R132), so it
reaches 0 only where `CUR = LIM`, the end of a message without payload. -/
def optionLoop (m : Memory) : Nat → OptLoop → Except Status Message
  | 0, o => .ok (o.message [])
  | k + 1, o =>
    if o.pos.cur < o.pos.lim then
      match optionTurn m o with
      | .error x => .error x
      | .ok (.more o') => optionLoop m k o'
      | .ok (.done msg) => .ok msg
    else .ok (o.message [])

/-- The rest of a parse from an option position on. -/
def optionsFrom (m : Memory) (o : OptLoop) : Except Status Message := optionLoop m (o.pos.lim - o.pos.cur) o

/-- Phases 1 and 2 on the header that stands in the buffer (R122, R123). -/
def readHeader (m : Memory) (n : Nat) : Except Status OptLoop :=
  if n < 4 then .error .shortHeader
  else if headerVer (m.read 0) ≠ Config.version then .error .badVersion
  else headerElement (headerType (m.read 0)) (headerTkl (m.read 0)) (m.read 1) (midOf (m.read 2) (m.read 3)) m n

/-- The message the first `n` bytes of the buffer hold, or the first error met from the left (R130, R131). -/
def parseDatagram (m : Memory) (n : Nat) : Except Status Message := (readHeader m n).bind (optionsFrom m)

/-- The variables of the parse of the first `n` bytes before its `k`-th option position, if it gets there with the
options before it decoded. -/
def beforeOption (m : Memory) (n : Nat) : Nat → Option OptLoop
  | 0 => (readHeader m n).toOption
  | k + 1 =>
    match beforeOption m n k with
    | none => none
    | some o =>
      if o.pos.cur < o.pos.lim then
        match optionTurn m o with
        | .ok (.more o') => some o'
        | .ok (.done _) => none
        | .error _ => none
      else none

/-! ### The wire-format rows as instructions: each runs where the host's next event is `PARSE` at its position -/

/-- The datagram length of a `PARSE` that stands before its header, all four bytes of it inside the datagram, and the
state with that event taken. -/
def State.atHeader (s : State) (P : Config.Sizes := Config.hardware) : Option (Nat × State) :=
  match s.host with
  | .element n 0 :: rest =>
    if 4 ≤ n.toNat ∧ n.toNat ≤ P.maxBuffer then some (n.toNat, { s with host := rest }) else none
  | _ => none

/-- The variables of a `PARSE` that stands at an option position, before the end of the datagram, and the state with
that event taken. -/
def State.atOption (s : State) (P : Config.Sizes := Config.hardware) : Option (OptLoop × State) :=
  match s.host with
  | .element n (k + 1) :: rest =>
    if n.toNat ≤ P.maxBuffer then
      match beforeOption s.dbuf n.toNat k with
      | none => none
      | some o => if o.pos.cur < o.pos.lim then some (o, { s with host := rest }) else none
    else none
  | _ => none

/-- A row at a header: the parse ends as `f` says for the datagram's length. -/
def runAtHeader (f : Nat → Except Status Message) (s : State) (P : Config.Sizes) : Host.Outcome State Fault Refusal :=
  match s.atHeader P with
  | none => .refused .wireElementOutsideParse
  | some (n, t) => .next (t.endParse (f n))

/-- A row at an option position: the parse ends as `f` says for the variables there. -/
def runAtOption (f : OptLoop → Except Status Message) (s : State) (P : Config.Sizes) :
    Host.Outcome State Fault Refusal :=
  match s.atOption P with
  | none => .refused .wireElementOutsideParse
  | some (o, t) => .next (t.endParse (f o))

/-- `WIRE_HEADER` (R81, R122, R123): header and token, then the options behind them. -/
def execWireHeader (t : MsgType) (k : Nibble) (code : Byte) (mid : MsgId) (s : State)
    (P : Config.Sizes := Config.hardware) : Host.Outcome State Fault Refusal :=
  runAtHeader (fun n => (headerElement t k code mid s.dbuf n).bind (optionsFrom s.dbuf)) s P

/-- `WIRE_PAYLOAD_MARKER` (R94, R127, R128): the payload, and the message is whole. -/
def execWirePayloadMarker (s : State) (P : Config.Sizes := Config.hardware) : Host.Outcome State Fault Refusal :=
  runAtOption (fun o => (markerElement s.dbuf o).map o.message) s P

/-- `WIRE_RESERVED_DELTA` (R96, R124): whatever the length nibble. -/
def execWireReservedDelta (_ln : Nibble) (s : State) (P : Config.Sizes := Config.hardware) :
    Host.Outcome State Fault Refusal :=
  runAtOption (fun _ => .error .badOptionDelta) s P

/-- `WIRE_RESERVED_LENGTH` (R96, R124): whatever the delta nibble. -/
def execWireReservedLength (_dn : Nibble) (s : State) (P : Config.Sizes := Config.hardware) :
    Host.Outcome State Fault Refusal :=
  runAtOption (fun _ => .error .badOptionLength) s P

/-- `WIRE_OPTION` (R89, R90, R124 to R126): the option, then what stands behind it. -/
def execWireOption (dn ln : Nibble) (s : State) (P : Config.Sizes := Config.hardware) :
    Host.Outcome State Fault Refusal :=
  runAtOption (fun o => (optionElement dn ln s.dbuf o).bind (optionsFrom s.dbuf)) s P

end Sys2Proof.Machine
end

