-- ==== Sys2Proof/Machine/Parse.lean ====
section
/-! DEFINITION. `PARSE` (40_parse R120 to R130) and `PARSE_TMID` (42_partial_parse R170, R171), each one atomic step. -/

namespace Sys2Proof.Machine

/-- `PARSE n` (R120, R121, R128, R129). -/
def execParse (n : Word) (s : State) (P : Config.Sizes := Config.hardware) : Host.Outcome State Fault Refusal :=
  if P.maxBuffer < n.toNat then .next (s.raise .invalidArgument)
  else .next (s.endParse (parseDatagram s.dbuf n.toNat))

/-- `PARSE_TMID n` (R170, R171): no state but `STATUS`, `RES0`, `RES1` changes. -/
def execParseTmid (n : Word) (s : State) (P : Config.Sizes := Config.hardware) : Host.Outcome State Fault Refusal :=
  if P.maxBuffer < n.toNat then .next (s.raise .invalidArgument)
  else if n.toNat < 4 then .next (s.raise .shortHeader)
  else if headerVer (s.dbuf.read 0) ≠ Config.version then .next (s.raise .badVersion)
  else
    .next (s.returnOk ((headerType (s.dbuf.read 0)).setWidth 32)
      ((midOf (s.dbuf.read 2) (s.dbuf.read 3)).setWidth 32) [])

end Sys2Proof.Machine
end

