-- ==== Sys2Proof/Machine/Serialize.lean ====
section
/-! DEFINITION. `SERIALIZE` (41_serialize R150 to R162). -/

namespace Sys2Proof.Machine

/-- `StableSort(OPT)` (R154): by number only, ties in insertion order. -/
def stableSort (opt : List OptEntry) : List OptEntry :=
  opt.insertionSort (fun a b => a.num.toNat ≤ b.num.toNat)

/-- Are all deltas of a sorted table, the first taken from `prev`, at most `MAX_OPT_DELTA` (R160, 10_state R39)? -/
def gapsFit : Nat → List OptEntry → Bool
  | _, [] => true
  | prev, e :: rest => decide (e.num.toNat - prev ≤ Config.maxOptDelta) && gapsFit e.num.toNat rest

/-- The length of one option with delta `d` and value length `l` (30_encoding R97). -/
def optionLen (d l : Nat) : Nat := 1 + extLen (nib d) + extLen (nib l) + l

/-- The length of the options, the first delta taken from `prev` (R97). -/
def optionsLen : Nat → List OptEntry → Nat
  | _, [] => 0
  | prev, e :: rest => optionLen (e.num.toNat - prev) e.val.length + optionsLen e.num.toNat rest

/-- `EncLen`, the length of the image of a message (R97, R155). -/
def Message.encLen (m : Message) : Nat :=
  4 + m.tkl.toNat + optionsLen 0 (stableSort m.opt) + (if 0 < m.pay.length then 1 + m.pay.length else 0)

/-- One option on the wire (R157): header byte, extended delta, extended length, value. -/
def optionImage (d : Nat) (val : Bytes) : Bytes :=
  optionByte (nib d) (nib val.length) :: (ext d ++ ext val.length ++ val)

/-- The options on the wire, the first delta taken from `prev` (R157). -/
def optionsImage : Nat → List OptEntry → Bytes
  | _, [] => []
  | prev, e :: rest => optionImage (e.num.toNat - prev) e.val ++ optionsImage e.num.toNat rest

/-- The fixed header on the wire (R157, 30_encoding R81, R85, R87); the version is the hard-wired 1 (R21). -/
def Message.headerImage (m : Message) : Bytes :=
  [headerByte0 m.ver m.mtype m.tkl, m.code, midHi m.mid, midLo m.mid]

/-- The payload on the wire, behind its marker, nothing where there is none (R94). -/
def payloadImage (pay : Bytes) : Bytes := if 0 < pay.length then 0xFF :: pay else []

/-- The wire image of a message (R157). -/
def Message.image (m : Message) : Bytes :=
  m.headerImage ++ m.tokenBytes ++ optionsImage 0 (stableSort m.opt) ++ payloadImage m.pay

/-- `SERIALIZE cap` (R157): the checks in the order of R237, then the image written as one byte range (log 14). -/
def execSerialize (cap : Word) (s : State) (P : Config.Sizes := Config.hardware) : Host.Outcome State Fault Refusal :=
  if P.maxBuffer < cap.toNat then .next (s.raise .invalidArgument)
  else if Config.maxTkl < s.msg.tkl.toNat then .next (s.raise .invalidTokenLength)
  else if (stableSort s.msg.opt).any (fun e => decide (Config.maxOptValue < e.val.length)) then
    .next (s.raise .optionValueTooLong)
  else if gapsFit 0 (stableSort s.msg.opt) = false then .fault .invariantViolation
  else if cap.toNat < s.msg.encLen then .next (s.raise .bufferTooSmall)
  else
    match wrBytes s.dbuf { cur := 0, lim := cap.toNat } s.msg.image with
    | none => .next (s.raise .bufferTooSmall)
    | some (m, c) => .next ({ s with dbuf := m }.returnOk (lenWord c.cur) 0 [])

end Sys2Proof.Machine
end

