-- ==== Sys2Proof/Machine/Dispatch.lean ====
section
/-! DEFINITION. What each instruction does: one arm per constructor, one direct call of its meaning. -/

namespace Sys2Proof.Machine

def exec (i : Instr) (s : State) : Host.Outcome State Fault Refusal :=
  match i with
  | .msgClear => Sys2Proof.Machine.execMsgClear s
  | .parse n => Sys2Proof.Machine.execParse n s
  | .serialize cap => Sys2Proof.Machine.execSerialize cap s
  | .parseTmid n => Sys2Proof.Machine.execParseTmid n s
  | .isEmpty => Sys2Proof.Machine.execIsEmpty s
  | .setType t => Sys2Proof.Machine.execSetType t s
  | .getType => Sys2Proof.Machine.execGetType s
  | .setMid m => Sys2Proof.Machine.execSetMid m s
  | .getMid => Sys2Proof.Machine.execGetMid s
  | .setToken d => Sys2Proof.Machine.execSetToken d s
  | .getToken => Sys2Proof.Machine.execGetToken s
  | .getCodeClass => Sys2Proof.Machine.execGetCodeClass s
  | .getCodeDetail => Sys2Proof.Machine.execGetCodeDetail s
  | .setCode k d => Sys2Proof.Machine.execSetCode k d s
  | .addOption x d => Sys2Proof.Machine.execAddOption x d s
  | .optCount => Sys2Proof.Machine.execOptCount s
  | .optGet k => Sys2Proof.Machine.execOptGet k s
  | .setPayload d => Sys2Proof.Machine.execSetPayload d s
  | .getPayload => Sys2Proof.Machine.execGetPayload s
  | .bufWr a d => Sys2Proof.Machine.execBufWr a d s
  | .bufRd a k => Sys2Proof.Machine.execBufRd a k s
  | .wireHeader t k code mid => Sys2Proof.Machine.execWireHeader t k code mid s
  | .wirePayloadMarker => Sys2Proof.Machine.execWirePayloadMarker s
  | .wireReservedDelta ln => Sys2Proof.Machine.execWireReservedDelta ln s
  | .wireReservedLength dn => Sys2Proof.Machine.execWireReservedLength dn s
  | .wireOption dn ln => Sys2Proof.Machine.execWireOption dn ln s

end Sys2Proof.Machine
end

