-- ==== Sys2Proof/Machine/Fetch.lean ====
section
/-! DEFINITION. What the next step is to do: the host's next event is taken (60_exceptions R233, R234; 70_reset R260),
or the block holds its state (R241). And the placing of an opcode-table word where the next step fetches it (logs 1, 2,
3, 17). -/

namespace Sys2Proof.Machine

/-- What the fetch gives: a step complete in itself, or an instruction to run in a state. -/
inductive Fetched where
  | done (s : State)
  | run (i : Instr) (s : State)

/-- The wire-format row a `PARSE` taken up at one of its elements stands before: the header of version 1, or the byte at
an option position (30_encoding R81, R96). None where it never gets there. -/
def State.elementRow (s : State) (P : Config.Sizes := Config.hardware) : Option Instr :=
  match s.atHeader P with
  | some _ => (decodeHeader (s.dbuf.read 0) (s.dbuf.read 1) (s.dbuf.read 2) (s.dbuf.read 3)).toOption
  | none =>
    match s.atOption P with
    | some (o, _) => some (decodeOptionByte (s.dbuf.read o.pos.cur))
    | none => none

/-- The fetch. An opcode that selects no command completes with `BadCommand` (30_encoding R101). A `PARSE` taken up at
an element it never gets to is fetched as `PARSE`. -/
def fetch (s : State) (P : Config.Sizes := Config.hardware) : Fetched :=
  match s.host with
  | [] => .done s
  | .reset :: rest => .done { s with host := rest }.afterReset
  | .command c :: rest =>
    match decodeCommand c with
    | .error _ => .done ({ s with host := rest }.raise .badCommand)
    | .ok i => .run i { s with host := rest }
  | .element n _ :: rest =>
    match s.elementRow P with
    | some i => .run i s
    | none => .run (.parse n) { s with host := rest }

/-- How many bytes behind an option-position byte its element takes, its extensions being zero bytes: extensions and
value of an option, one payload byte behind the marker, none for a reserved byte. -/
def bytesBehind (b : Byte) : Nat :=
  if b = 0xFF then 1
  else if highNibble b = 15 ∨ lowNibble b = 15 then 0
  else extLen (highNibble b) + extLen (lowNibble b) + extVal (lowNibble b) 0

/-- The state with an instruction's bits placed where the next step fetches them, first in what the host issues: a
command; a header at offset 0 and `PARSE` of the header and a token of zero bytes; an option-position byte at offset 4,
behind the header `40 00 00 00`, and `PARSE` of it and the zero bytes its element takes. -/
def State.place (s : State) : Encoded → State
  | .command c => { s with host := .command c :: s.host }
  | .header b0 b1 b2 b3 =>
    let k := (headerTkl b0).toNat
    { s with
      dbuf := s.dbuf.writeBytes 0 ([b0, b1, b2, b3] ++ List.replicate k 0)
      host := .element (lenWord (4 + k)) 0 :: s.host }
  | .optionPosition b =>
    let k := bytesBehind b
    { s with
      dbuf := s.dbuf.writeBytes 0 ([0x40, 0x00, 0x00, 0x00, b] ++ List.replicate k 0)
      host := .element (lenWord (5 + k)) 1 :: s.host }

/-- The placing of a table word; a word of no form changes nothing. -/
def State.placeTableWord (s : State) (nbits w : Nat) : State :=
  match tableWord nbits w with
  | none => s
  | some e => s.place e

end Sys2Proof.Machine
end

