-- ==== Sys2Proof/Machine/Step.lean ====
section
/-! DEFINITION. One step of the machine: fetch (Machine/Fetch.lean), then run (Machine/Dispatch.lean). -/

namespace Sys2Proof.Machine

/-- One step: one command, one reset, or nothing where nothing is pending (R233, R234, R241). -/
def step (s : State) : Host.Outcome State Fault Refusal :=
  match fetch s with
  | .done t => .next t
  | .run i t => exec i t

/-- `s` with the instruction of an opcode-table word placed where `step` fetches its next instruction. -/
def State.withFetchWord (s : State) (nbits w : Nat) : State := s.placeTableWord nbits w

end Sys2Proof.Machine
end

