-- ==== Sys2Proof/Machine/Variant.lean ====
section
/-! DEFINITION. The machine with its sizes as an argument (00_scope R5; 93_implementation_defined U16, 92_eei_decisions
D10, D11; log 12): `exec` and `step` of a block built with the sizes `P`. `exec` and `step` themselves are those of
this hardware (Laws/Step.lean proves both equations). -/

namespace Sys2Proof.Machine

/-- What an instruction does on a block with the sizes `P`. -/
def execOf (P : Config.Sizes) (i : Instr) (s : State) : Host.Outcome State Fault Refusal :=
  match i with
  | .msgClear => execMsgClear s
  | .parse n => execParse n s P
  | .serialize cap => execSerialize cap s P
  | .parseTmid n => execParseTmid n s P
  | .isEmpty => execIsEmpty s
  | .setType t => execSetType t s
  | .getType => execGetType s
  | .setMid m => execSetMid m s
  | .getMid => execGetMid s
  | .setToken d => execSetToken d s
  | .getToken => execGetToken s
  | .getCodeClass => execGetCodeClass s
  | .getCodeDetail => execGetCodeDetail s
  | .setCode k d => execSetCode k d s
  | .addOption x d => execAddOption x d s P
  | .optCount => execOptCount s
  | .optGet k => execOptGet k s
  | .setPayload d => execSetPayload d s P
  | .getPayload => execGetPayload s
  | .bufWr a d => execBufWr a d s P
  | .bufRd a k => execBufRd a k s P
  | .wireHeader t k code mid => execWireHeader t k code mid s P
  | .wirePayloadMarker => execWirePayloadMarker s P
  | .wireReservedDelta ln => execWireReservedDelta ln s P
  | .wireReservedLength dn => execWireReservedLength dn s P
  | .wireOption dn ln => execWireOption dn ln s P

/-- One step of a block with the sizes `P`. -/
def stepOf (P : Config.Sizes) (s : State) : Host.Outcome State Fault Refusal :=
  match fetch s P with
  | .done t => .next t
  | .run i t => execOf P i t

end Sys2Proof.Machine
end

