-- ==== Sys2Proof/Safety.lean ====
section
/-! DEFINITION. What counts as a good state and a safe run, in the terms claims use: the reachable-state invariant `WF`
(10_state R33) with the gap property (R39), message equality up to option ordering (R38), and runs that neither fault
nor are refused. -/

namespace Sys2Proof.Machine

/-- `WF` of a message, R33 (b) to (g): token length, token bytes above it zero, table and value capacities, the store
bound (R28), the gap property (R39); (a), the version, is hard-wired (`Message.ver`). -/
abbrev Message.wf (m : Message) (P : Config.Sizes := Config.hardware) : Prop :=
  m.tkl.toNat ≤ 8 ∧
  (∀ i : Fin 8, m.tkl.toNat ≤ i.val → m.token[i] = 0) ∧
  m.opt.length ≤ P.nOpt ∧
  (∀ e ∈ m.opt, e.val.length ≤ Config.maxOptValue) ∧
  m.storeUse ≤ P.vstoreSize ∧
  gapsFit 0 (stableSort m.opt) = true

/-- The registers show the response last presented (R31, R32, 60_exceptions R235, R236). -/
abbrev State.registersShowResponse (s : State) : Prop :=
  ∀ r ∈ s.response, s.status = r.status ∧ s.res0 = r.rv0 ∧ s.res1 = r.rv1

/-- The status codes a command can end with: those of R230 but the reserved `TruncatedPayload` (40_parse R137). -/
def producedCodes : List Byte :=
  [0x00, 0x01, 0x02, 0x03, 0x04, 0x05, 0x07, 0x08, 0x09, 0x10, 0x11, 0x12, 0x20, 0x21]

/-- A good state: the message well formed, the buffer in canonical form, the registers those of the last response, a
status some rule produces. -/
abbrev State.good (s : State) (P : Config.Sizes := Config.hardware) : Prop :=
  s.msg.wf P ∧ s.dbuf.wf P ∧ s.registersShowResponse ∧ s.status ∈ producedCodes

/-- Message equality `~` up to option ordering (R38). -/
def Message.same (m1 m2 : Message) : Prop :=
  m1.mtype = m2.mtype ∧ m1.tkl = m2.tkl ∧ m1.token = m2.token ∧ m1.code = m2.code ∧ m1.mid = m2.mid ∧
    m1.pay = m2.pay ∧ stableSort m1.opt = stableSort m2.opt

/-- The gap property written out (R39): with `s` the sorted table and `s[-1].num = 0`, every gap is at most 65804. -/
def Message.gapProperty (m : Message) : Prop :=
  ∀ j (h : j < (stableSort m.opt).length),
    (stableSort m.opt)[j].num.toNat - (if j = 0 then 0 else ((stableSort m.opt)[j - 1]'(by omega)).num.toNat) ≤ 65804

/-! ### How an instruction ends -/

/-- `STATUS`, `RES0`, `RES1` and the response show this outcome (60_exceptions R235, R236). -/
def Presents (t : State) (st : Byte) (r0 r1 : Word) (data : Bytes) : Prop :=
  t.status = st ∧ t.res0 = r0 ∧ t.res1 = r1 ∧
    t.response = some { status := st, rv0 := r0, rv1 := r1, data := data }

/-- The buffer is the same, as data and at every address read. -/
def SameBuffer (s t : State) : Prop := t.dbuf = s.dbuf ∧ ∀ a, t.dbuf.read a = s.dbuf.read a

/-- What the host has still to issue is the same. -/
def SameHost (s t : State) : Prop := t.host = s.host

/-- The cleared message, field by field (43_helpers R181). -/
def IsCleared (m : Message) : Prop :=
  m.mtype = 0 ∧ m.tkl = 0 ∧ (∀ i : Fin 8, m.token[i] = 0) ∧ m.code = 0x00 ∧ m.mid = 0x0000 ∧ m.opt = [] ∧ m.pay = []

/-- `i` completes with `OK`, these results and this message; nothing else changes. -/
def EndsOk (i : Instr) (s : State) (r0 r1 : Word) (data : Bytes) (m : Message) : Prop :=
  ∃ u, exec i s = .next u ∧ Presents u 0x00 r0 r1 data ∧ u.msg = m ∧ SameBuffer s u ∧ SameHost s u

/-- `i` completes with the error status `x`; nothing but `STATUS`, `RES0`, `RES1` and the response changes. -/
def EndsInError (i : Instr) (s : State) (x : Byte) : Prop :=
  ∃ u, exec i s = .next u ∧ Presents u x 0 0 [] ∧ u.msg = s.msg ∧ SameBuffer s u ∧ SameHost s u

/-- `i` ends a parse with the error status `x`: the message is cleared, the buffer unchanged, and the host has `rest`
still to issue. -/
def EndsCleared (i : Instr) (s : State) (x : Byte) (rest : List HostEvent := s.host) : Prop :=
  ∃ u, exec i s = .next u ∧ Presents u x 0 0 [] ∧ IsCleared u.msg ∧ SameBuffer s u ∧ u.host = rest

/-- `i` ends a parse with `OK` and this message; the buffer is unchanged, and the host has `rest` still to issue. -/
def Delivers (i : Instr) (s : State) (m : Message) (rest : List HostEvent := s.host) : Prop :=
  ∃ u, exec i s = .next u ∧ Presents u 0x00 0 0 [] ∧ u.msg = m ∧ SameBuffer s u ∧ u.host = rest

/-- `i` decodes its element of a datagram and ends as the rest of the datagram ends, decoded from an option position on
with these variables; the host has `rest` still to issue. -/
def Continues (i : Instr) (s : State) (o : OptLoop) (rest : List HostEvent) : Prop :=
  (∀ m, optionsFrom s.dbuf o = .ok m → Delivers i s m rest) ∧
  (∀ x, optionsFrom s.dbuf o = .error x → EndsCleared i s x.code rest)

/-- A run of `k` steps is safe: it ends in a state, with no fault and no refusal. -/
def SafeRun (k : Nat) (s : State) : Prop := ∃ t, Host.Core.run Sys2Proof.core k s = .next t

end Sys2Proof.Machine
end

