-- ==== Sys2Proof/WellFormed.lean ====
section
/-! DEFINITION. Which terms of `Instr` stand for words of the spec. Every operand value of every command is legal to
present (70_reset R271: "every combination has a defined outcome"), so only the wire rows have side conditions:
nibble 15 belongs to the marker and the reserved patterns (30_encoding R89, R96; the `source_fields` of the table). -/

namespace Sys2Proof

/-- The well-formedness check. -/
def Instr.wellFormed : Instr → Bool
  | .wireReservedDelta ln => ln != 15
  | .wireReservedLength dn => dn != 15
  | .wireOption dn ln => dn != 15 && ln != 15
  | .wireHeader _ _ _ _ => true
  | .wirePayloadMarker => true
  | .msgClear => true
  | .parse _ => true
  | .serialize _ => true
  | .parseTmid _ => true
  | .isEmpty => true
  | .setType _ => true
  | .getType => true
  | .setMid _ => true
  | .getMid => true
  | .setToken _ => true
  | .getToken => true
  | .getCodeClass => true
  | .getCodeDetail => true
  | .setCode _ _ => true
  | .addOption _ _ => true
  | .optCount => true
  | .optGet _ => true
  | .setPayload _ => true
  | .getPayload => true
  | .bufWr _ _ => true
  | .bufRd _ _ => true

/-- Is it one of the 21 commands of R100 (as against a wire-format row)? -/
def Instr.isCommand : Instr → Bool
  | .wireReservedDelta _ => false
  | .wireReservedLength _ => false
  | .wireOption _ _ => false
  | .wireHeader _ _ _ _ => false
  | .wirePayloadMarker => false
  | .msgClear => true
  | .parse _ => true
  | .serialize _ => true
  | .parseTmid _ => true
  | .isEmpty => true
  | .setType _ => true
  | .getType => true
  | .setMid _ => true
  | .getMid => true
  | .setToken _ => true
  | .getToken => true
  | .getCodeClass => true
  | .getCodeDetail => true
  | .setCode _ _ => true
  | .addOption _ _ => true
  | .optCount => true
  | .optGet _ => true
  | .setPayload _ => true
  | .getPayload => true
  | .bufWr _ _ => true
  | .bufRd _ _ => true

end Sys2Proof
end

