-- ==== Sys2Proof/Certificates/Slice0/Obligations.lean ====
section
/-! DEFINITION. The statements for the provers, from the numbered rules of the spec. How an instruction ends is said by
the predicates of Sys2Proof/Safety.lean (`EndsOk`, `EndsInError`, `EndsCleared`, `Delivers`, `Continues`), each of which
says the instruction ANSWERS a next state, what that state presents, and that everything else is as before. -/

open Sys2Proof Sys2Proof.Machine

/-! ### Encoding -/

/-- Words written out from the opcode table and the field layouts decode to what they stand for. That a bare 8-bit word
of the table is read as the command of that opcode with zero operands where there is one, and as a byte at an option
position otherwise, and a 32-bit word as the header with byte 0 most significant, is the model's choice (log 2, DESIGN
CHOICE); the bits of each row are the table's. -/
def Obligations.SampleWordsDecode : Prop :=
  decodeTableWord 8 0x02 = some (.parse 0) ∧
  decodeTableWord 8 0x1A = some (.addOption 0 []) ∧
  decodeTableWord 8 0x21 = some (.bufRd 0 0) ∧
  decodeTableWord 32 0x64451234 = some (.wireHeader 2 4 0x45 0x1234) ∧
  decodeTableWord 32 0x80011234 = none ∧
  decodeTableWord 8 0xFF = some .wirePayloadMarker ∧
  decodeTableWord 8 0xF1 = some (.wireReservedDelta 1) ∧
  decodeTableWord 8 0xEF = some (.wireReservedLength 14) ∧
  decodeTableWord 8 0xB7 = some (.wireOption 11 7)

/-- R98, R100: the opcode byte selects the command; operands a command does not use are ignored. -/
def Obligations.OpcodesSelectCommands : Prop :=
  ∀ (a0 a1 : Word) (d : Bytes),
    decodeCommand ⟨0x01, a0, a1, d⟩ = .ok .msgClear ∧
    decodeCommand ⟨0x02, a0, a1, d⟩ = .ok (.parse a0) ∧
    decodeCommand ⟨0x03, a0, a1, d⟩ = .ok (.serialize a0) ∧
    decodeCommand ⟨0x04, a0, a1, d⟩ = .ok (.parseTmid a0) ∧
    decodeCommand ⟨0x10, a0, a1, d⟩ = .ok .isEmpty ∧
    decodeCommand ⟨0x11, a0, a1, d⟩ = .ok (.setType a0) ∧
    decodeCommand ⟨0x12, a0, a1, d⟩ = .ok .getType ∧
    decodeCommand ⟨0x13, a0, a1, d⟩ = .ok (.setMid a0) ∧
    decodeCommand ⟨0x14, a0, a1, d⟩ = .ok .getMid ∧
    decodeCommand ⟨0x15, a0, a1, d⟩ = .ok (.setToken d) ∧
    decodeCommand ⟨0x16, a0, a1, d⟩ = .ok .getToken ∧
    decodeCommand ⟨0x17, a0, a1, d⟩ = .ok .getCodeClass ∧
    decodeCommand ⟨0x18, a0, a1, d⟩ = .ok .getCodeDetail ∧
    decodeCommand ⟨0x19, a0, a1, d⟩ = .ok (.setCode a0 a1) ∧
    decodeCommand ⟨0x1A, a0, a1, d⟩ = .ok (.addOption a0 d) ∧
    decodeCommand ⟨0x1B, a0, a1, d⟩ = .ok .optCount ∧
    decodeCommand ⟨0x1C, a0, a1, d⟩ = .ok (.optGet a0) ∧
    decodeCommand ⟨0x1D, a0, a1, d⟩ = .ok (.setPayload d) ∧
    decodeCommand ⟨0x1E, a0, a1, d⟩ = .ok .getPayload ∧
    decodeCommand ⟨0x20, a0, a1, d⟩ = .ok (.bufWr a0 d) ∧
    decodeCommand ⟨0x21, a0, a1, d⟩ = .ok (.bufRd a0 a1)

/-- Decoding an encoded well-formed instruction gives it back; and whatever decodes is well formed and, but for the
operands a command ignores, is encoded to what it was decoded from. -/
def Obligations.DecodeEncodeAgree : Prop :=
  (∀ i : Instr, i.wellFormed = true → decode (encode i) = .ok i) ∧
  (∀ (e : Encoded) (i : Instr), decode e = .ok i →
    i.wellFormed = true ∧
    (∀ b0 b1 b2 b3, e = .header b0 b1 b2 b3 → encode i = e) ∧
    (∀ b, e = .optionPosition b → encode i = e) ∧
    (∀ c, e = .command c → ∃ c', encode i = .command c' ∧ c'.op = c.op ∧ decodeCommand c' = .ok i))

/-- R96 (the rows for an option position), R89: what each byte at an option position is. -/
def Obligations.OptionPositionBytes : Prop :=
  ∀ b : Byte,
    (b.toNat = 0xFF → decodeOptionByte b = .wirePayloadMarker) ∧
    (0xF0 ≤ b.toNat → b.toNat ≤ 0xFE → decodeOptionByte b = .wireReservedDelta (BitVec.ofNat 4 (b.toNat % 16))) ∧
    (b.toNat / 16 < 15 → b.toNat % 16 = 15 →
      decodeOptionByte b = .wireReservedLength (BitVec.ofNat 4 (b.toNat / 16))) ∧
    (b.toNat / 16 < 15 → b.toNat % 16 < 15 →
      decodeOptionByte b = .wireOption (BitVec.ofNat 4 (b.toNat / 16)) (BitVec.ofNat 4 (b.toNat % 16)))

/-- R91: every value 0..65804 has exactly one nibble-and-extension encoding, and no value above has one. -/
def Obligations.ExtensionsAreUnique : Prop :=
  (∀ v, v ≤ 65804 →
    nib v ≠ 15 ∧ (ext v).length = extLen (nib v) ∧ extVal (nib v) (beNat (ext v)) = v) ∧
  (∀ (x : Nibble) (e : Bytes), x ≠ 15 → e.length = extLen x →
    extVal x (beNat e) ≤ 65804 ∧ nib (extVal x (beNat e)) = x ∧ ext (extVal x (beNat e)) = e)

/-- R104: the bytes of a first option with an empty value, for the numbers the source singles out and the two
remaining boundaries. -/
def Obligations.FirstOptionDeltaTable : Prop :=
  optionsImage 0 [⟨0, []⟩] = [0x00] ∧
  optionsImage 0 [⟨12, []⟩] = [0xC0] ∧
  optionsImage 0 [⟨13, []⟩] = [0xD0, 0x00] ∧
  optionsImage 0 [⟨269, []⟩] = [0xE0, 0x00, 0x00] ∧
  optionsImage 0 [⟨270, []⟩] = [0xE0, 0x00, 0x01] ∧
  optionsImage 0 [⟨65804, []⟩] = [0xE0, 0xFF, 0xFF] ∧
  optionsImage 0 [⟨268, []⟩] = [0xD0, 0xFF] ∧
  optionsImage 0 [⟨14, []⟩] = [0xD0, 0x01]

/-! ### Steps and reset -/

/-- A step with a command next from the host runs the decoded instruction, the command taken off what the host has still
to issue (60_exceptions R233, R234; the list of what it has still to issue is the model's, log 3). -/
def Obligations.StepRunsDecodedCommand : Prop :=
  ∀ (s : State) (c : Command) (rest : List HostEvent) (i : Instr),
    s.host = .command c :: rest → decodeCommand c = .ok i →
      step s = exec i { s with host := rest }

/-- A step with a `PARSE` taken up at one of its elements next (the model's event, log 1) runs the wire-format row that
stands there: the header at offset 0, or the byte at the cursor. -/
def Obligations.StepRunsDecodedElement : Prop :=
  (∀ (s : State) (n : Word) (rest : List HostEvent) (i : Instr),
    s.host = .element n 0 :: rest → 4 ≤ n.toNat → n.toNat ≤ 1024 →
      decodeHeader (s.dbuf.read 0) (s.dbuf.read 1) (s.dbuf.read 2) (s.dbuf.read 3) = .ok i → step s = exec i s) ∧
  (∀ (s : State) (n : Word) (k : Nat) (rest : List HostEvent) (o : OptLoop),
    s.host = .element n (k + 1) :: rest → n.toNat ≤ 1024 → beforeOption s.dbuf n.toNat k = some o →
      o.pos.cur < o.pos.lim → step s = exec (decodeOptionByte (s.dbuf.read o.pos.cur)) s)

/-- R101: an opcode byte outside the table ends with `BadCommand`, whatever the operands; nothing but `STATUS`, `RES0`,
`RES1` and the response changes, and the command is off what the host has still to issue (the model's list, log 3). -/
def Obligations.IllegalOpcodesEndInBadCommand : Prop :=
  ∀ (s : State) (c : Command) (rest : List HostEvent),
    s.host = .command c :: rest →
    (c.op.toNat = 0x00 ∨ (0x05 ≤ c.op.toNat ∧ c.op.toNat ≤ 0x0F) ∨ c.op.toNat = 0x1F ∨ 0x22 ≤ c.op.toNat) →
      ∃ u, step s = .next u ∧ Presents u 0x21 0 0 [] ∧ u.msg = s.msg ∧ SameBuffer s u ∧ u.host = rest

/-- R241: when no command is executing and none is pending (the host's list, the model's, log 3, is empty) the block
holds its state. -/
def Obligations.IdleBlockHoldsItsState : Prop :=
  ∀ s : State, s.host = [] → step s = .next s

/-- R37: the state after reset. -/
def Obligations.ResetStateIsAsTheSpecSays : Prop :=
  State.reset.msg.ver = 1 ∧ IsCleared State.reset.msg ∧ State.reset.msg.storeUse = 0 ∧
  State.reset.status = 0 ∧ State.reset.res0 = 0 ∧ State.reset.res1 = 0 ∧
  ∀ a, State.reset.dbuf.written a = none

/-- R260 to R262: reset applied between commands puts every register to its reset value and leaves every byte of the
buffer unwritten; that the host's list (log 3) keeps the rest, that no response stands and that the unwritten bytes are
those of the next draw is the model's choice (logs 5 and 7). -/
def Obligations.ResetEventRestoresResetState : Prop :=
  ∀ (s : State) (rest : List HostEvent), s.host = .reset :: rest →
    ∃ u, step s = .next u ∧ IsCleared u.msg ∧ u.status = 0 ∧ u.res0 = 0 ∧ u.res1 = 0 ∧ u.response = none ∧
      u.host = rest ∧ (∀ a, u.dbuf.written a = none) ∧ u.dbuf.epoch = s.dbuf.epoch + 1 ∧
      ∀ a, u.dbuf.read a = Config.unwrittenByte u.dbuf.epoch a

/-- No step of any state is refused: every opcode and every wire element that `step` can meet has its meaning. -/
def Obligations.StepIsNeverRefused : Prop :=
  ∀ (s : State) (r : Refusal), step s ≠ .refused r

/-! ### Message access commands -/

/-- R181. -/
def Obligations.MsgClearGivesClearedMessage : Prop :=
  ∀ s : State,
    (∀ a0 a1 d, decodeCommand ⟨0x01, a0, a1, d⟩ = .ok .msgClear) ∧ ∃ m, EndsOk .msgClear s 0 0 [] m ∧ IsCleared m

/-- R182: the code alone decides, whatever the token, the options and the payload. -/
def Obligations.IsEmptyTestsTheCodeAlone : Prop :=
  ∀ s : State,
    (∀ a0 a1 d, decodeCommand ⟨0x10, a0, a1, d⟩ = .ok .isEmpty) ∧
    (s.msg.code = 0x00 → EndsOk .isEmpty s 1 0 [] s.msg) ∧
    (s.msg.code ≠ 0x00 → EndsOk .isEmpty s 0 0 [] s.msg)

/-- R183, on the whole 32-bit operand (R180 d). -/
def Obligations.SetTypeResult : Prop :=
  ∀ (t : Word) (s : State),
    (∀ a1 d, decodeCommand ⟨0x11, t, a1, d⟩ = .ok (.setType t)) ∧
    (3 < t.toNat → EndsInError (.setType t) s 0x20) ∧
    (t.toNat ≤ 3 → ∃ m, EndsOk (.setType t) s 0 0 [] m ∧ m.mtype.toNat = t.toNat ∧ m = { s.msg with mtype := m.mtype })

/-- R185. -/
def Obligations.SetMidResult : Prop :=
  ∀ (v : Word) (s : State),
    (∀ a1 d, decodeCommand ⟨0x13, v, a1, d⟩ = .ok (.setMid v)) ∧
    (0xFFFF < v.toNat → EndsInError (.setMid v) s 0x20) ∧
    (v.toNat ≤ 0xFFFF → ∃ m, EndsOk (.setMid v) s 0 0 [] m ∧ m.mid.toNat = v.toNat ∧ m = { s.msg with mid := m.mid })

/-- R184, R186. -/
def Obligations.TypeAndMidGetters : Prop :=
  ∀ s : State,
    (∀ a0 a1 d, decodeCommand ⟨0x12, a0, a1, d⟩ = .ok .getType) ∧
    (∀ a0 a1 d, decodeCommand ⟨0x14, a0, a1, d⟩ = .ok .getMid) ∧
    (∃ r : Word, r.toNat = s.msg.mtype.toNat ∧ r.toNat ≤ 3 ∧ EndsOk .getType s r 0 [] s.msg) ∧
    (∃ r : Word, r.toNat = s.msg.mid.toNat ∧ EndsOk .getMid s r 0 [] s.msg)

/-- R187: the previous token is replaced entirely, zeros above the new one. -/
def Obligations.SetTokenResult : Prop :=
  ∀ (d : Bytes) (s : State),
    (∀ a0 a1, decodeCommand ⟨0x15, a0, a1, d⟩ = .ok (.setToken d)) ∧
    (8 < d.length → EndsInError (.setToken d) s 0x20) ∧
    (d.length ≤ 8 → ∃ m, EndsOk (.setToken d) s 0 0 [] m ∧ m.tkl.toNat = d.length ∧
      (∀ i : Fin 8, m.token[i] = if h : i.val < d.length then d[i.val] else 0) ∧
      m = { s.msg with tkl := m.tkl, token := m.token })

/-- R187, R188: the token read after it is set is the token set. -/
def Obligations.SetTokenThenGetToken : Prop :=
  ∀ (d : Bytes) (s t : State), d.length ≤ 8 → exec (.setToken d) s = .next t →
    EndsOk .getToken t (BitVec.ofNat 32 d.length) 0 d t.msg

/-- R188: the length and the bytes below it. -/
def Obligations.GetTokenResult : Prop :=
  ∀ s : State, s.msg.tkl.toNat ≤ 8 →
    (∀ a0 a1 d, decodeCommand ⟨0x16, a0, a1, d⟩ = .ok .getToken) ∧
    ∃ (r : Word) (d : Bytes), EndsOk .getToken s r 0 d s.msg ∧ r.toNat = s.msg.tkl.toNat ∧
      d.length = s.msg.tkl.toNat ∧ ∀ i : Fin 8, i.val < s.msg.tkl.toNat → d[i.val]? = some s.msg.token[i]

/-- R189, R190: `code[7:5]` and `code[4:0]`. -/
def Obligations.CodeGetters : Prop :=
  ∀ s : State,
    (∀ a0 a1 d, decodeCommand ⟨0x17, a0, a1, d⟩ = .ok .getCodeClass) ∧
    (∀ a0 a1 d, decodeCommand ⟨0x18, a0, a1, d⟩ = .ok .getCodeDetail) ∧
    (∃ r : Word, r.toNat = s.msg.code.toNat / 32 ∧ r.toNat ≤ 7 ∧ EndsOk .getCodeClass s r 0 [] s.msg) ∧
    (∃ r : Word, r.toNat = s.msg.code.toNat % 32 ∧ r.toNat ≤ 31 ∧ EndsOk .getCodeDetail s r 0 [] s.msg)

/-- R191: `k << 5 | d`; the classes the source calls invalid are accepted. -/
def Obligations.SetCodeResult : Prop :=
  ∀ (k d : Word) (s : State),
    (∀ b, decodeCommand ⟨0x19, k, d, b⟩ = .ok (.setCode k d)) ∧
    (7 < k.toNat ∨ 31 < d.toNat → EndsInError (.setCode k d) s 0x20) ∧
    (k.toNat ≤ 7 → d.toNat ≤ 31 → ∃ m, EndsOk (.setCode k d) s 0 0 [] m ∧ m.code.toNat = 32 * k.toNat + d.toNat ∧
      m = { s.msg with code := m.code })

/-- R192: the four checks, then the entry becomes the last in insertion order. -/
def Obligations.AddOptionResult : Prop :=
  ∀ (x : Word) (d : Bytes) (s : State),
    (∀ a1, decodeCommand ⟨0x1A, x, a1, d⟩ = .ok (.addOption x d)) ∧
    (65804 < x.toNat ∨ 65804 < d.length ∨ s.msg.opt.length = 1020 ∨
        1024 < (s.msg.opt.map fun e => e.val.length).sum + s.msg.pay.length + d.length →
      EndsInError (.addOption x d) s 0x20) ∧
    (x.toNat ≤ 65804 → d.length ≤ 65804 → s.msg.opt.length ≠ 1020 →
        (s.msg.opt.map fun e => e.val.length).sum + s.msg.pay.length + d.length ≤ 1024 →
      EndsOk (.addOption x d) s 0 0 [] { s.msg with opt := s.msg.opt ++ [{ num := x, val := d }] })

/-- R194: by insertion order; an index at or above the count is refused. -/
def Obligations.OptGetResult : Prop :=
  ∀ (i : Word) (s : State),
    (∀ a1 d, decodeCommand ⟨0x1C, i, a1, d⟩ = .ok (.optGet i)) ∧
    (s.msg.opt.length ≤ i.toNat → EndsInError (.optGet i) s 0x20) ∧
    (∀ h : i.toNat < s.msg.opt.length,
      EndsOk (.optGet i) s s.msg.opt[i.toNat].num (BitVec.ofNat 32 s.msg.opt[i.toNat].val.length)
        s.msg.opt[i.toNat].val s.msg)

/-- R192, R194: an option added is found at the index that was the count, and every earlier index still answers what it
answered before. -/
def Obligations.AddOptionThenOptGet : Prop :=
  ∀ (x : Word) (d : Bytes) (s t : State) (i : Word),
    exec (.addOption x d) s = .next t → t.status = 0x00 →
      (i.toNat = s.msg.opt.length → EndsOk (.optGet i) t x (BitVec.ofNat 32 d.length) d t.msg) ∧
      (i.toNat < s.msg.opt.length →
        ∃ u v, exec (.optGet i) s = .next u ∧ exec (.optGet i) t = .next v ∧ u.status = 0x00 ∧ v.response = u.response)

/-- R195: the old payload does not count. -/
def Obligations.SetPayloadResult : Prop :=
  ∀ (d : Bytes) (s : State),
    (∀ a0 a1, decodeCommand ⟨0x1D, a0, a1, d⟩ = .ok (.setPayload d)) ∧
    (1024 < (s.msg.opt.map fun e => e.val.length).sum + d.length → EndsInError (.setPayload d) s 0x20) ∧
    ((s.msg.opt.map fun e => e.val.length).sum + d.length ≤ 1024 →
      EndsOk (.setPayload d) s 0 0 [] { s.msg with pay := d })

/-- R193, R196: the number of options; the payload and its length. -/
def Obligations.OptCountAndPayloadGetters : Prop :=
  ∀ s : State,
    (∀ a0 a1 d, decodeCommand ⟨0x1B, a0, a1, d⟩ = .ok .optCount) ∧
    (∀ a0 a1 d, decodeCommand ⟨0x1E, a0, a1, d⟩ = .ok .getPayload) ∧
    EndsOk .optCount s (BitVec.ofNat 32 s.msg.opt.length) 0 [] s.msg ∧
    EndsOk .getPayload s (BitVec.ofNat 32 s.msg.pay.length) 0 s.msg.pay s.msg

/-! ### Buffer commands -/

/-- R220: the whole range or nothing; exactly the bytes of the range change. -/
def Obligations.BufWrResult : Prop :=
  ∀ (a : Word) (d : Bytes) (s : State),
    (∀ a1, decodeCommand ⟨0x20, a, a1, d⟩ = .ok (.bufWr a d)) ∧
    (1024 < a.toNat ∨ 1024 - a.toNat < d.length → EndsInError (.bufWr a d) s 0x20) ∧
    (a.toNat ≤ 1024 → d.length ≤ 1024 - a.toNat →
      ∃ u, exec (.bufWr a d) s = .next u ∧ Presents u 0x00 0 0 [] ∧ u.msg = s.msg ∧ SameHost s u ∧
        (∀ j (h : j < d.length), u.dbuf.read (a.toNat + j) = d[j]) ∧
        (∀ x, x < a.toNat ∨ a.toNat + d.length ≤ x → u.dbuf.read x = s.dbuf.read x))

/-- R221: the bytes of the range; no state changes but `STATUS`, `RES0`, `RES1`. -/
def Obligations.BufRdResult : Prop :=
  ∀ (a k : Word) (s : State),
    (∀ d, decodeCommand ⟨0x21, a, k, d⟩ = .ok (.bufRd a k)) ∧
    (1024 < a.toNat ∨ 1024 - a.toNat < k.toNat → EndsInError (.bufRd a k) s 0x20) ∧
    (a.toNat ≤ 1024 → k.toNat ≤ 1024 - a.toNat →
      ∃ d : Bytes, EndsOk (.bufRd a k) s 0 0 d s.msg ∧ d.length = k.toNat ∧
        ∀ j (h : j < d.length), d[j] = s.dbuf.read (a.toNat + j))

/-! ### PARSE and PARSE_TMID -/

/-- R121: the operand check comes first and changes nothing; it is passed by every `n` up to 1024. -/
def Obligations.ParseOperandCheck : Prop :=
  ∀ (n : Word) (s : State),
    (1024 < n.toNat → EndsInError (.parse n) s 0x20) ∧
    (n.toNat ≤ 1024 → ∃ u, exec (.parse n) s = .next u ∧ u.status ≠ 0x20) ∧
    (n.toNat = 0 → EndsCleared (.parse n) s 0x01)

/-- R122, R123: the errors of the header and the token, in their order. -/
def Obligations.ParseHeaderErrors : Prop :=
  ∀ (n : Word) (s : State), n.toNat ≤ 1024 →
    (n.toNat < 4 → EndsCleared (.parse n) s 0x01) ∧
    (4 ≤ n.toNat → (s.dbuf.read 0).toNat / 64 ≠ 1 → EndsCleared (.parse n) s 0x02) ∧
    (4 ≤ n.toNat → (s.dbuf.read 0).toNat / 64 = 1 → 8 < (s.dbuf.read 0).toNat % 16 → EndsCleared (.parse n) s 0x03) ∧
    (4 ≤ n.toNat → (s.dbuf.read 0).toNat / 64 = 1 → (s.dbuf.read 0).toNat % 16 ≤ 8 →
      n.toNat < 4 + (s.dbuf.read 0).toNat % 16 → EndsCleared (.parse n) s 0x04)

/-- R129: a `ParseError` leaves the cleared message, zero results, no data and the buffer unchanged. -/
def Obligations.ParseErrorClearsMessage : Prop :=
  ∀ (n : Word) (s u : State), exec (.parse n) s = .next u → u.status ≠ 0x00 → u.status ≠ 0x20 →
    u.status ∈ ([0x01, 0x02, 0x03, 0x04, 0x05, 0x07, 0x08, 0x09] : List Byte) ∧
    Presents u u.status 0 0 [] ∧ IsCleared u.msg ∧ SameBuffer s u

/-- R128, R135: when the buffer holds the image of a well-formed message, `PARSE` of its length delivers that message
with its options in sorted order; the previous message is gone. -/
def Obligations.ParseDeliversTheMessage : Prop :=
  ∀ (n : Word) (s : State) (m : Message), m.wf → m.image.length = n.toNat → n.toNat ≤ 1024 →
    s.dbuf.readBytes 0 n.toNat = m.image →
      Delivers (.parse n) s { m with opt := stableSort m.opt }

/-- R135 (a): `PARSE` of what `SERIALIZE` wrote gives the message back, up to option ordering. -/
def Obligations.ParseAfterSerialize : Prop :=
  ∀ (cap : Word) (s u : State), s.msg.wf → exec (.serialize cap) s = .next u → u.status = 0x00 →
    Delivers (.parse u.res0) u { s.msg with opt := stableSort s.msg.opt } ∧
    Message.same { s.msg with opt := stableSort s.msg.opt } s.msg

/-- R135 (b): `SERIALIZE` of what `PARSE` delivered writes the same datagram back. -/
def Obligations.SerializeAfterParse : Prop :=
  ∀ (n cap : Word) (s u : State), exec (.parse n) s = .next u → u.status = 0x00 →
    n.toNat ≤ cap.toNat → cap.toNat ≤ 1024 →
      ∃ v, exec (.serialize cap) u = .next v ∧ Presents v 0x00 n 0 [] ∧ ∀ a, v.dbuf.read a = s.dbuf.read a

/-- R136: what `PARSE` makes of every proper truncation of an image. `e j` is the offset just after the `j`-th of the
sorted options. -/
def Obligations.ParseOfTruncatedImage : Prop :=
  ∀ (k : Word) (s : State) (m : Message), m.wf → k.toNat < m.image.length → m.image.length ≤ 1024 →
    s.dbuf.readBytes 0 k.toNat = m.image.take k.toNat →
    let e := fun j => 4 + m.tkl.toNat + (optionsImage 0 ((stableSort m.opt).take j)).length
    let c := m.opt.length
    (k.toNat < 4 → EndsCleared (.parse k) s 0x01) ∧
    (4 ≤ k.toNat → k.toNat < 4 + m.tkl.toNat → EndsCleared (.parse k) s 0x04) ∧
    (∀ j, j ≤ c → k.toNat = e j → Delivers (.parse k) s { m with opt := (stableSort m.opt).take j, pay := [] }) ∧
    (∀ j, j < c → e j < k.toNat → k.toNat < e (j + 1) → EndsCleared (.parse k) s 0x05) ∧
    (k.toNat = e c + 1 → EndsCleared (.parse k) s 0x09) ∧
    (e c + 1 < k.toNat →
      Delivers (.parse k) s { m with opt := stableSort m.opt, pay := m.pay.take (k.toNat - e c - 1) })

/-- R138: after a successful `PARSE` the options are in wire order, the bytes behind the token being theirs one after
the other, in non-decreasing order of number, and sorting them changes nothing. -/
def Obligations.ParsedOptionsAreInOrder : Prop :=
  ∀ (n : Word) (s u : State), exec (.parse n) s = .next u → u.status = 0x00 →
    s.dbuf.readBytes (4 + u.msg.tkl.toNat) (optionsImage 0 u.msg.opt).length = optionsImage 0 u.msg.opt ∧
    u.msg.opt.Pairwise (fun a b => a.num.toNat ≤ b.num.toNat) ∧ stableSort u.msg.opt = u.msg.opt

/-- R134: a parse overflows neither the option table, nor the value store, nor an option number: on this hardware, and
on every block whose sizes keep the constraints of 00_scope R5 (log 12). -/
def Obligations.ParseNeverOverflows : Prop :=
  (∀ (n : Word) (s u : State), exec (.parse n) s = .next u → u.status = 0x00 →
    u.msg.opt.length ≤ n.toNat - 4 ∧
    u.msg.storeUse ≤ n.toNat - 5 ∧
    (∀ e ∈ u.msg.opt, e.num.toNat ≤ n.toNat / 3 * 65804 ∧ e.val.length ≤ 65804) ∧
    u.msg.opt.Pairwise (fun a b => a.num.toNat ≤ b.num.toNat)) ∧
  (∀ (P : Config.Sizes), P.admissible → ∀ (n : Word) (s u : State), execOf P (.parse n) s = .next u → u.status = 0x00 →
    n.toNat ≤ P.maxBuffer ∧ u.msg.opt.length ≤ P.nOpt ∧ u.msg.storeUse ≤ P.vstoreSize ∧
    (∀ e ∈ u.msg.opt, e.num.toNat ≤ n.toNat / 3 * 65804 ∧ e.val.length ≤ 65804) ∧
    u.msg.opt.Pairwise (fun a b => a.num.toNat ≤ b.num.toNat))

/-- R137: no instruction produces `TruncatedPayload`. -/
def Obligations.TruncatedPayloadIsNeverRaised : Prop :=
  ∀ (i : Instr) (s u : State), exec i s = .next u → u.status ≠ 0x06

/-- R56, R120: `PARSE n` depends on `DBUF[0 .. n-1]` alone, not on the rest of the buffer and not on the message it
replaces. -/
def Obligations.ParseReadsOnlyTheDatagram : Prop :=
  ∀ (n : Word) (s s' : State), n.toNat ≤ 1024 → (∀ a, a < n.toNat → s.dbuf.read a = s'.dbuf.read a) →
    ∃ u u', exec (.parse n) s = .next u ∧ exec (.parse n) s' = .next u' ∧ u.msg = u'.msg ∧ u.response = u'.response

/-- R170, R171: the checks in their order, the type and the message id, and no state changed but `STATUS`, `RES0`,
`RES1`; the token length is not looked at. -/
def Obligations.ParseTmidResult : Prop :=
  ∀ (n : Word) (s : State),
    (∀ a1 d, decodeCommand ⟨0x04, n, a1, d⟩ = .ok (.parseTmid n)) ∧
    (1024 < n.toNat → EndsInError (.parseTmid n) s 0x20) ∧
    (n.toNat < 4 → EndsInError (.parseTmid n) s 0x01) ∧
    (4 ≤ n.toNat → n.toNat ≤ 1024 → (s.dbuf.read 0).toNat / 64 ≠ 1 → EndsInError (.parseTmid n) s 0x02) ∧
    (4 ≤ n.toNat → n.toNat ≤ 1024 → (s.dbuf.read 0).toNat / 64 = 1 →
      ∃ r0 r1 : Word, EndsOk (.parseTmid n) s r0 r1 [] s.msg ∧ r0.toNat = (s.dbuf.read 0).toNat / 16 % 4 ∧
        r1.toNat = (s.dbuf.read 2).toNat * 256 + (s.dbuf.read 3).toNat)

/-- R172: the laws between `PARSE_TMID` and `PARSE` on one buffer. -/
def Obligations.ParseTmidAgreesWithParse : Prop :=
  ∀ (n : Word) (s : State), ∃ u v, exec (.parse n) s = .next u ∧ exec (.parseTmid n) s = .next v ∧
    (4 ≤ n.toNat → n.toNat ≤ 1024 → (s.dbuf.read 0).toNat / 64 = 1 → v.status = 0x00) ∧
    (u.status = 0x00 → v.status = 0x00 ∧ v.res0.toNat = u.msg.mtype.toNat ∧ v.res1.toNat = u.msg.mid.toNat) ∧
    (u.status = 0x01 ∨ u.status = 0x02 → v.status = u.status) ∧
    (u.status ∈ ([0x03, 0x04, 0x05, 0x07, 0x08, 0x09] : List Byte) → v.status = 0x00)

/-- `PARSE` is its elements, one after the other (R130): taken up by the name of the wire-format row at any of them (the
model's event, log 1), or at one it never gets to, the step ends exactly as `PARSE` ends. So the event adds no behaviour
to those of the commands. -/
def Obligations.ParseIsTheRunOfItsElements : Prop :=
  ∀ (n : Word) (k : Nat) (s : State) (rest : List HostEvent), s.host = .element n k :: rest →
    step s = exec (.parse n) { s with host := rest }

/-! ### SERIALIZE -/

/-- R157, R158: where every check passes, the image stands at offset 0, everything else is unchanged, and its length is
returned. The image is written out: header bytes, token, sorted options, marker and payload. -/
def Obligations.SerializeWritesTheImage : Prop :=
  ∀ (cap : Word) (s : State),
    (∀ a1 d, decodeCommand ⟨0x03, cap, a1, d⟩ = .ok (.serialize cap)) ∧
    (cap.toNat ≤ 1024 → s.msg.tkl.toNat ≤ 8 → (∀ e ∈ s.msg.opt, e.val.length ≤ 65804) → s.msg.gapProperty →
      s.msg.encLen ≤ cap.toNat →
        ∃ u, exec (.serialize cap) s = .next u ∧ Presents u 0x00 (BitVec.ofNat 32 s.msg.encLen) 0 [] ∧
          u.msg = s.msg ∧ SameHost s u ∧ 4 ≤ s.msg.encLen ∧
          u.dbuf.readBytes 0 s.msg.encLen =
            [BitVec.ofNat 8 (64 + 16 * s.msg.mtype.toNat + s.msg.tkl.toNat), s.msg.code,
              BitVec.ofNat 8 (s.msg.mid.toNat / 256), BitVec.ofNat 8 (s.msg.mid.toNat % 256)]
            ++ s.msg.token.toList.take s.msg.tkl.toNat
            ++ optionsImage 0 (stableSort s.msg.opt)
            ++ (if s.msg.pay = [] then [] else 0xFF :: s.msg.pay) ∧
          ∀ x, s.msg.encLen ≤ x → u.dbuf.read x = s.dbuf.read x)

/-- R159, R237: the errors in their order; nothing is written and the message is unchanged. -/
def Obligations.SerializeErrors : Prop :=
  ∀ (cap : Word) (s : State),
    (1024 < cap.toNat → EndsInError (.serialize cap) s 0x20) ∧
    (cap.toNat ≤ 1024 → 8 < s.msg.tkl.toNat → EndsInError (.serialize cap) s 0x11) ∧
    (cap.toNat ≤ 1024 → s.msg.tkl.toNat ≤ 8 → (∃ e ∈ s.msg.opt, 65804 < e.val.length) →
      EndsInError (.serialize cap) s 0x12) ∧
    (cap.toNat ≤ 1024 → s.msg.tkl.toNat ≤ 8 → (∀ e ∈ s.msg.opt, e.val.length ≤ 65804) → s.msg.gapProperty →
      cap.toNat < s.msg.encLen → EndsInError (.serialize cap) s 0x10)

/-- R160: a delta without an encoding is the model-level fault `InvariantViolation`, once the checks before it pass. -/
def Obligations.UnencodableDeltaFaults : Prop :=
  ∀ (cap : Word) (s : State), cap.toNat ≤ 1024 → s.msg.tkl.toNat ≤ 8 →
    (∀ e ∈ s.msg.opt, e.val.length ≤ 65804) → ¬ s.msg.gapProperty →
      exec (.serialize cap) s = .fault .invariantViolation

/-- R154: the sort of `SERIALIZE` keeps the entries, orders them by number, and among equal numbers keeps their order. -/
def Obligations.StableSortIsStable : Prop :=
  ∀ opt : List OptEntry,
    (stableSort opt).Perm opt ∧
    (stableSort opt).Pairwise (fun a b => a.num.toNat ≤ b.num.toNat) ∧
    ∀ x : OptNum, (stableSort opt).filter (fun e => e.num = x) = opt.filter (fun e => e.num = x)

/-- R161: `SERIALIZE` issued twice in a row gives the same response and the same bytes, and the table keeps its
insertion order. -/
def Obligations.SerializeTwiceIsTheSame : Prop :=
  ∀ (cap : Word) (s u : State), exec (.serialize cap) s = .next u →
    u.msg = s.msg ∧ ∃ v, exec (.serialize cap) u = .next v ∧ v.response = u.response ∧ v.msg = u.msg ∧
      ∀ a, v.dbuf.read a = u.dbuf.read a

/-! ### The wire-format rows -/

/-- R81, R84, R122, R123: the header row, where the host's next event is a `PARSE` before its header (log 1): the two
errors, else the token and then the options behind it, none of them where the datagram ends there. -/
def Obligations.WireHeaderResult : Prop :=
  ∀ (t : MsgType) (k : Nibble) (code : Byte) (mid : MsgId) (s : State) (n : Word) (rest : List HostEvent),
    s.host = .element n 0 :: rest → 4 ≤ n.toNat → n.toNat ≤ 1024 →
    (8 < k.toNat → EndsCleared (.wireHeader t k code mid) s 0x03 rest) ∧
    (k.toNat ≤ 8 → n.toNat < 4 + k.toNat → EndsCleared (.wireHeader t k code mid) s 0x04 rest) ∧
    (k.toNat ≤ 8 → 4 + k.toNat ≤ n.toNat →
      Continues (.wireHeader t k code mid) s
        { pos := ⟨4 + k.toNat, n.toNat⟩, mtype := t, tkl := k, code := code, mid := mid,
          tok := s.dbuf.readBytes 4 k.toNat, prev := 0, opts := [] } rest) ∧
    (k.toNat ≤ 8 → n.toNat = 4 + k.toNat →
      ∃ m, Delivers (.wireHeader t k code mid) s m rest ∧ m.mtype = t ∧ m.tkl = k ∧ m.code = code ∧ m.mid = mid ∧
        m.tokenBytes = s.dbuf.readBytes 4 k.toNat ∧ m.opt = [] ∧ m.pay = [])

/-- R89, R90, R92, R125, R126: the option row, where the host's next event is a `PARSE` at an option position (log 1):
extended delta, extended length, value, the running sum; truncated where any of its bytes lies at or beyond the limit;
else the parse goes on behind it, and the message is whole where the datagram ends there. -/
def Obligations.WireOptionResult : Prop :=
  ∀ (dn ln : Nibble) (s : State) (n : Word) (k : Nat) (rest : List HostEvent) (o : OptLoop),
    s.host = .element n (k + 1) :: rest → n.toNat ≤ 1024 → beforeOption s.dbuf n.toNat k = some o →
    o.pos.cur < o.pos.lim → dn ≠ 15 → ln ≠ 15 →
    let c1 := o.pos.cur + 1 + extLen dn
    let delta := extVal dn (beNat (s.dbuf.readBytes (o.pos.cur + 1) (extLen dn)))
    let c2 := c1 + extLen ln
    let length := extVal ln (beNat (s.dbuf.readBytes c1 (extLen ln)))
    let opts := o.opts ++ [{ num := o.prev + BitVec.ofNat 32 delta, val := s.dbuf.readBytes c2 length }]
    o.pos.lim = n.toNat ∧
    (n.toNat < c2 + length → EndsCleared (.wireOption dn ln) s 0x05 rest) ∧
    (c2 + length ≤ n.toNat →
      Continues (.wireOption dn ln) s
        { o with pos := ⟨c2 + length, n.toNat⟩, prev := o.prev + BitVec.ofNat 32 delta, opts := opts } rest) ∧
    (c2 + length = n.toNat →
      ∃ m, Delivers (.wireOption dn ln) s m rest ∧ m.mtype = o.mtype ∧ m.tkl = o.tkl ∧ m.code = o.code ∧ m.mid = o.mid ∧
        m.opt = opts ∧ m.pay = [])

/-- R94, R127, R128: the marker row, where the host's next event is a `PARSE` at an option position (log 1): the payload
runs to the end of the datagram and the message is delivered. -/
def Obligations.WirePayloadMarkerResult : Prop :=
  ∀ (s : State) (n : Word) (k : Nat) (rest : List HostEvent) (o : OptLoop),
    s.host = .element n (k + 1) :: rest → n.toNat ≤ 1024 → beforeOption s.dbuf n.toNat k = some o →
    o.pos.cur < o.pos.lim →
    o.pos.lim = n.toNat ∧
    (o.pos.cur + 1 = n.toNat → EndsCleared .wirePayloadMarker s 0x09 rest) ∧
    (o.pos.cur + 1 < n.toNat →
      ∃ m, Delivers .wirePayloadMarker s m rest ∧ m.mtype = o.mtype ∧ m.tkl = o.tkl ∧ m.code = o.code ∧ m.mid = o.mid ∧
        m.opt = o.opts ∧ m.pay = s.dbuf.readBytes (o.pos.cur + 1) (n.toNat - (o.pos.cur + 1)) ∧
        ∀ i : Fin 8, m.token[i] = o.tok.getD i.val 0)

/-- R96, R124: the two reserved rows, where the host's next event is a `PARSE` at an option position (log 1): each ends it
with its own error, before any byte behind is looked at. -/
def Obligations.WireReservedResults : Prop :=
  ∀ (x : Nibble) (s : State) (n : Word) (k : Nat) (rest : List HostEvent) (o : OptLoop),
    s.host = .element n (k + 1) :: rest → n.toNat ≤ 1024 → beforeOption s.dbuf n.toNat k = some o →
    o.pos.cur < o.pos.lim →
    EndsCleared (.wireReservedDelta x) s 0x07 rest ∧ EndsCleared (.wireReservedLength x) s 0x08 rest

/-! ### Invariants -/

/-- The state after reset is good. -/
def Obligations.ResetIsGood : Prop := State.reset.good

/-- R33, R39: every step from a good state leads to a good state: the message stays well formed, the gap property with
it, the buffer canonical, the registers those of the last response (kept by the model, log 4): on this hardware, and on
every block whose sizes keep the constraints of 00_scope R5 (log 12). -/
def Obligations.StepKeepsGood : Prop :=
  (∀ s t : State, s.good → step s = .next t → t.good) ∧
  ∀ P : Config.Sizes, P.admissible → ∀ s t : State, s.good P → stepOf P s = .next t → t.good P

/-- R233, R160: from a good state a run of any length goes on: no command hangs, faults or is refused. -/
def Obligations.GoodStatesNeverStop : Prop :=
  ∀ (k : Nat) (s : State), s.good → SafeRun k s

/-! ### Rules of the whole machine -/

/-- R30: only `BUF_WR` and `SERIALIZE` write the buffer. -/
def Obligations.OnlyBufWrAndSerializeWriteTheBuffer : Prop :=
  ∀ (i : Instr) (s t : State), exec i s = .next t →
    (∀ a d, i ≠ .bufWr a d) → (∀ cap, i ≠ .serialize cap) → SameBuffer s t

/-- R20, R27, R29: a field of the message changes only by the commands the spec names as its writers. -/
def Obligations.MessageFieldsHaveTheirWriters : Prop :=
  ∀ (i : Instr) (s t : State), i.isCommand = true → exec i s = .next t →
    i ≠ .msgClear → (∀ n, i ≠ .parse n) →
    ((∀ v, i ≠ .setType v) → t.msg.mtype = s.msg.mtype) ∧
    ((∀ d, i ≠ .setToken d) → t.msg.tkl = s.msg.tkl ∧ t.msg.token = s.msg.token) ∧
    ((∀ k d, i ≠ .setCode k d) → t.msg.code = s.msg.code) ∧
    ((∀ v, i ≠ .setMid v) → t.msg.mid = s.msg.mid) ∧
    ((∀ x d, i ≠ .addOption x d) → t.msg.opt = s.msg.opt) ∧
    ((∀ d, i ≠ .setPayload d) → t.msg.pay = s.msg.pay)

/-- R236 (first row), R180 (a): a command that ends with `InvalidArgument` changes neither the message nor the buffer. -/
def Obligations.InvalidArgumentChangesNothing : Prop :=
  ∀ (i : Instr) (s t : State), i.isCommand = true → exec i s = .next t → t.status = 0x20 →
    t.msg = s.msg ∧ SameBuffer s t ∧ SameHost s t

/-- R31, R32, R235, R236: every instruction that completes latches its response, and a response with an error status has
zero results and no data (that the response stays in the state is the model's choice, log 4). -/
def Obligations.EveryCommandLatchesItsResponse : Prop :=
  ∀ (i : Instr) (s t : State), exec i s = .next t →
    ∃ r, t.response = some r ∧ t.status = r.status ∧ t.res0 = r.rv0 ∧ t.res1 = r.rv1 ∧
      (r.status ≠ 0x00 → r.rv0 = 0 ∧ r.rv1 = 0 ∧ r.data = [])
end

