-- ==== Sys2Proof/Laws/Memory.lean ====
section
/-! SUPPORT. The laws of the datagram buffer: a read after a write gives what was written, a write leaves every other
byte alone, every operation keeps the canonical form; and what each cursor primitive can answer. -/

namespace Sys2Proof.Machine

theorem cellAt_setCell_same (cs : List Host.Cell) (a : Nat) (v : Byte) : cellAt (setCell cs a v) a = some v := by
  induction cs with
  | nil => simp [setCell, cellAt]
  | cons c rest ih =>
    obtain ⟨b, w⟩ := c
    simp only [setCell]
    split_ifs with h1 h2
    · simp [cellAt]
    · simp [cellAt]
    · simp [cellAt, h2, ih]

theorem cellAt_setCell_other (cs : List Host.Cell) {a b : Nat} (v : Byte) (h : b ≠ a) :
    cellAt (setCell cs a v) b = cellAt cs b := by
  induction cs with
  | nil => simp [setCell, cellAt, h]
  | cons c rest ih =>
    obtain ⟨d, w⟩ := c
    simp only [setCell]
    split_ifs with h1 h2
    · simp [cellAt, h]
    · subst h2; simp [cellAt, h]
    · simp only [cellAt, ih]

theorem mem_setCell {cs : List Host.Cell} {a : Nat} {v : Byte} {c : Host.Cell} (h : c ∈ setCell cs a v) :
    c = (a, v) ∨ c ∈ cs := by
  induction cs with
  | nil => simpa [setCell] using h
  | cons d rest ih =>
    obtain ⟨b, w⟩ := d
    simp only [setCell] at h
    split_ifs at h
    · simpa using h
    · rcases List.mem_cons.mp h with h | h
      · exact .inl h
      · exact .inr (List.mem_cons_of_mem _ h)
    · rcases List.mem_cons.mp h with h | h
      · exact .inr (h ▸ List.mem_cons_self)
      · rcases ih h with h | h
        · exact .inl h
        · exact .inr (List.mem_cons_of_mem _ h)

theorem setCell_sorted {cs : List Host.Cell} (a : Nat) (v : Byte) (h : cs.Pairwise (fun x y => x.1 < y.1)) :
    (setCell cs a v).Pairwise (fun x y => x.1 < y.1) := by
  induction cs with
  | nil => simp [setCell]
  | cons c rest ih =>
    obtain ⟨b, w⟩ := c
    have hb : ∀ y ∈ rest, b < y.1 := fun y hy => List.rel_of_pairwise_cons h hy
    have hr := List.Pairwise.of_cons h
    simp only [setCell]
    split_ifs with h1 h2
    · refine List.pairwise_cons.mpr ⟨fun y hy => ?_, h⟩
      rcases List.mem_cons.mp hy with rfl | hy
      · exact h1
      · exact Nat.lt_trans h1 (hb y hy)
    · subst h2
      exact List.pairwise_cons.mpr ⟨fun y hy => hb y hy, hr⟩
    · refine List.pairwise_cons.mpr ⟨fun y hy => ?_, ih hr⟩
      rcases mem_setCell hy with rfl | hy
      · show b < a
        omega
      · exact hb y hy

/-! ### Reading and writing one byte -/

@[simp] theorem Memory.set_epoch (m : Memory) (a : Nat) (v : Byte) : (m.set a v).epoch = m.epoch := rfl

@[simp] theorem Memory.read_set_same (m : Memory) (a : Nat) (v : Byte) : (m.set a v).read a = v := by
  simp [Memory.read, Memory.written, Memory.set, cellAt_setCell_same]

@[simp] theorem Memory.read_set_other (m : Memory) {a b : Nat} (v : Byte) (h : b ≠ a) :
    (m.set a v).read b = m.read b := by
  simp [Memory.read, Memory.written, Memory.set, cellAt_setCell_other _ _ h]

theorem Memory.set_keeps_wf {P : Config.Sizes} {m : Memory} {a : Nat} (v : Byte) (h : m.wf P) (ha : a < P.maxBuffer) :
    (m.set a v).wf P :=
  ⟨setCell_sorted a v h.1, fun c hc => by
    rcases mem_setCell hc with rfl | hc
    · exact ha
    · exact h.2 c hc⟩

/-! ### Byte ranges -/

@[simp] theorem Memory.readBytes_length (m : Memory) (a k : Nat) : (m.readBytes a k).length = k := by
  induction k generalizing a with
  | zero => rfl
  | succ k ih => simp [Memory.readBytes, ih]

theorem Memory.readBytes_getElem (m : Memory) (a k j : Nat) (h : j < (m.readBytes a k).length) :
    (m.readBytes a k)[j] = m.read (a + j) := by
  induction k generalizing a j with
  | zero => simp [Memory.readBytes] at h
  | succ k ih =>
    cases j with
    | zero => rfl
    | succ j =>
      have := ih (a + 1) j (by simpa [Memory.readBytes] using h)
      simpa [Memory.readBytes, Nat.add_assoc, Nat.add_comm 1 j] using this

theorem Memory.readBytes_add (m : Memory) (a j k : Nat) :
    m.readBytes a (j + k) = m.readBytes a j ++ m.readBytes (a + j) k := by
  induction j generalizing a with
  | zero => simp [Memory.readBytes]
  | succ j ih =>
    rw [Nat.succ_add]
    simp [Memory.readBytes, ih, Nat.add_assoc, Nat.add_comm 1 j]

@[simp] theorem Memory.writeBytes_epoch (m : Memory) (a : Nat) (s : Bytes) : (m.writeBytes a s).epoch = m.epoch := by
  induction s generalizing m a with
  | nil => rfl
  | cons b bs ih => simp [Memory.writeBytes, ih]

/-- Everything `MemWriteBytes` does, read byte by byte (R55). -/
theorem Memory.read_writeBytes (m : Memory) (a : Nat) (s : Bytes) (x : Nat) :
    (m.writeBytes a s).read x = if h : a ≤ x ∧ x < a + s.length then s[x - a]'(by omega) else m.read x := by
  induction s generalizing m a with
  | nil => simp [Memory.writeBytes]
  | cons b bs ih =>
    simp only [Memory.writeBytes, ih, List.length_cons]
    by_cases hx : x = a
    · subst hx
      simp
    · by_cases h : a + 1 ≤ x ∧ x < a + 1 + bs.length
      · have h' : a ≤ x ∧ x < a + (bs.length + 1) := by omega
        have he : x - a = (x - (a + 1)) + 1 := by omega
        simp [h, h', he]
      · have h' : ¬ (a ≤ x ∧ x < a + (bs.length + 1)) := by omega
        rw [dif_neg h, dif_neg h', Memory.read_set_other _ _ hx]

theorem Memory.read_writeBytes_outside (m : Memory) {a x : Nat} (s : Bytes) (h : ¬ (a ≤ x ∧ x < a + s.length)) :
    (m.writeBytes a s).read x = m.read x := by
  rw [Memory.read_writeBytes, dif_neg h]

theorem Memory.readBytes_writeBytes (m : Memory) (a : Nat) (s : Bytes) :
    (m.writeBytes a s).readBytes a s.length = s := by
  refine List.ext_getElem (by simp) fun j h1 h2 => ?_
  rw [Memory.readBytes_getElem, Memory.read_writeBytes, dif_pos ⟨by omega, by omega⟩]
  congr 1
  omega

theorem Memory.writeBytes_keeps_wf {P : Config.Sizes} {m : Memory} {a : Nat} {s : Bytes} (h : m.wf P)
    (ha : a + s.length ≤ P.maxBuffer) : (m.writeBytes a s).wf P := by
  induction s generalizing m a with
  | nil => exact h
  | cons b bs ih =>
    simp only [List.length_cons] at ha
    exact ih (Memory.set_keeps_wf b h (by omega)) (by omega)

@[simp] theorem beBytes_length (n v : Nat) : (beBytes n v).length = n := by
  induction n with
  | zero => rfl
  | succ n ih => simp [beBytes, ih]

theorem Memory.writeInt_keeps_wf {P : Config.Sizes} {m : Memory} {a n : Nat} (v : Nat) (h : m.wf P)
    (ha : a + n ≤ P.maxBuffer) : (m.writeInt a n v).wf P :=
  Memory.writeBytes_keeps_wf h (by simpa using ha)

/-! ### The cursor primitives: when each answers, and what -/

theorem rd_eq_some {m : Memory} {c c' : Cursor} {n v : Nat} :
    rd m c n = some (v, c') ↔
      c.cur + n ≤ c.lim ∧ v = m.readInt c.cur n ∧ c' = { c with cur := c.cur + n } := by
  unfold rd
  split_ifs with h
  · simp; omega
  · simp only [Option.some.injEq, Prod.mk.injEq]
    constructor
    · rintro ⟨rfl, rfl⟩; exact ⟨by omega, rfl, rfl⟩
    · rintro ⟨-, rfl, rfl⟩; exact ⟨rfl, rfl⟩

theorem rdBytes_eq_some {m : Memory} {c c' : Cursor} {k : Nat} {s : Bytes} :
    rdBytes m c k = some (s, c') ↔
      c.cur + k ≤ c.lim ∧ s = m.readBytes c.cur k ∧ c' = { c with cur := c.cur + k } := by
  unfold rdBytes
  split_ifs with h
  · simp; omega
  · simp only [Option.some.injEq, Prod.mk.injEq]
    constructor
    · rintro ⟨rfl, rfl⟩; exact ⟨by omega, rfl, rfl⟩
    · rintro ⟨-, rfl, rfl⟩; exact ⟨rfl, rfl⟩

theorem wr_eq_some {m m' : Memory} {c c' : Cursor} {n v : Nat} :
    wr m c n v = some (m', c') ↔
      c.cur + n ≤ c.lim ∧ m' = m.writeInt c.cur n v ∧ c' = { c with cur := c.cur + n } := by
  unfold wr
  split_ifs with h
  · simp; omega
  · simp only [Option.some.injEq, Prod.mk.injEq]
    constructor
    · rintro ⟨rfl, rfl⟩; exact ⟨by omega, rfl, rfl⟩
    · rintro ⟨-, rfl, rfl⟩; exact ⟨rfl, rfl⟩

theorem wrBytes_eq_some {m m' : Memory} {c c' : Cursor} {s : Bytes} :
    wrBytes m c s = some (m', c') ↔
      c.cur + s.length ≤ c.lim ∧ m' = m.writeBytes c.cur s ∧ c' = { c with cur := c.cur + s.length } := by
  unfold wrBytes
  split_ifs with h
  · simp; omega
  · simp only [Option.some.injEq, Prod.mk.injEq]
    constructor
    · rintro ⟨rfl, rfl⟩; exact ⟨by omega, rfl, rfl⟩
    · rintro ⟨-, rfl, rfl⟩; exact ⟨rfl, rfl⟩

theorem wrBytes_keeps_wf {P : Config.Sizes} {m m' : Memory} {c c' : Cursor} {s : Bytes}
    (h : wrBytes m c s = some (m', c')) (hm : m.wf P) (hl : c.lim ≤ P.maxBuffer) : m'.wf P := by
  obtain ⟨hc, rfl, -⟩ := wrBytes_eq_some.mp h
  exact Memory.writeBytes_keeps_wf hm (by omega)

end Sys2Proof.Machine
end

