-- ==== Sys2Proof/Laws/Operands.lean ====
section
/-! SUPPORT. Bounds of the nibble-and-extension values (30_encoding R90), the token register (43_helpers R187), the
use of the value store, and the constraints the parameters of 00_scope R5 keep. -/

namespace Sys2Proof.Machine

/-- This hardware keeps the constraints of 00_scope R5. -/
theorem hardware_admissible : Config.hardware.admissible := by decide

@[simp] theorem hardware_maxBuffer : Config.hardware.maxBuffer = 1024 := rfl
@[simp] theorem hardware_nOpt : Config.hardware.nOpt = 1020 := rfl
@[simp] theorem hardware_vstoreSize : Config.hardware.vstoreSize = 1024 := rfl
@[simp] theorem hardware_maxOptNumberSet : Config.hardware.maxOptNumberSet = 65804 := rfl

/-- Scalars are as wide as `OPTNUM_W` on this hardware, so neither conversion loses a bit. -/
@[simp] theorem optNumOfWord_eq (x : Word) : optNumOfWord x = x := BitVec.setWidth_eq x
@[simp] theorem optNumWord_eq (x : OptNum) : optNumWord x = x := BitVec.setWidth_eq x

theorem extLen_le_two (x : Nibble) : extLen x ≤ 2 := by
  unfold extLen
  split_ifs <;> omega

theorem beNat_append_singleton (bs : Bytes) (b : Byte) : beNat (bs ++ [b]) = beNat bs * 256 + b.toNat := by
  simp [beNat]

theorem beNat_lt (bs : Bytes) : beNat bs < 256 ^ bs.length := by
  induction bs using List.reverseRecOn with
  | nil => simp [beNat]
  | append_singleton bs b ih =>
    rw [beNat_append_singleton, List.length_append, List.length_singleton, pow_succ]
    have := b.isLt
    omega

/-- A decoded delta or length is at most 65804 (R90, 40_parse R125). -/
theorem extVal_le {x : Nibble} {e : Nat} (hx : x ≠ 15) (he : e < 256 ^ extLen x) : extVal x e ≤ 65804 := by
  have hlt := x.isLt
  have hne : x.toNat ≠ 15 := fun h => hx (BitVec.eq_of_toNat_eq (by simpa using h))
  unfold extVal
  unfold extLen at he
  split_ifs at he ⊢ <;> omega

/-- The register holds the token's bytes and zeros above them (R24, R187). -/
theorem tokenRegister_getElem (d : Bytes) (i : Nat) (h : i < 8) : (tokenRegister d)[i] = d.getD i 0 := by
  simp [tokenRegister]

theorem tokenRegister_zero_above (d : Bytes) (i : Fin 8) (h : d.length ≤ i.val) : (tokenRegister d)[i] = 0 := by
  rw [Fin.getElem_fin, tokenRegister_getElem d i.val i.isLt, List.getD_eq_default _ _ h]

/-- The token read back from the register is the token written (R187, R188). -/
theorem tokenRegister_take (d : Bytes) (h : d.length ≤ 8) : (tokenRegister d).toList.take d.length = d := by
  refine List.ext_getElem (by simp [h]) fun i h1 h2 => ?_
  simp [tokenRegister, List.getElem?_eq_getElem h2]

@[simp] theorem optBytes_nil : optBytes [] = 0 := rfl

@[simp] theorem optBytes_append (a b : List OptEntry) : optBytes (a ++ b) = optBytes a + optBytes b := by
  simp [optBytes]

@[simp] theorem optBytes_singleton (e : OptEntry) : optBytes [e] = e.val.length := by
  simp [optBytes]

/-- Sorting keeps the entries (41_serialize R154). -/
theorem stableSort_perm (opt : List OptEntry) : (stableSort opt).Perm opt :=
  List.perm_insertionSort _ _

theorem stableSort_length (opt : List OptEntry) : (stableSort opt).length = opt.length :=
  (stableSort_perm opt).length_eq

theorem mem_stableSort {opt : List OptEntry} {e : OptEntry} : e ∈ stableSort opt ↔ e ∈ opt :=
  (stableSort_perm opt).mem_iff

end Sys2Proof.Machine
end

