-- ==== Sys2Proof/Laws/State.lean ====
section
/-! SUPPORT. One lemma per field for each operation that updates the state (completion, reset), true by unfolding, so
that no later proof opens a record update. -/

namespace Sys2Proof.Machine

variable (s : State) (st x : Status) (r0 r1 : Word) (d : Bytes) (m : Message)

@[simp] theorem State.complete_msg : (s.complete st r0 r1 d).msg = s.msg := rfl
@[simp] theorem State.complete_dbuf : (s.complete st r0 r1 d).dbuf = s.dbuf := rfl
@[simp] theorem State.complete_status : (s.complete st r0 r1 d).status = st.code := rfl
@[simp] theorem State.complete_res0 : (s.complete st r0 r1 d).res0 = r0 := rfl
@[simp] theorem State.complete_res1 : (s.complete st r0 r1 d).res1 = r1 := rfl
@[simp] theorem State.complete_response :
    (s.complete st r0 r1 d).response = some { status := st.code, rv0 := r0, rv1 := r1, data := d } := rfl
@[simp] theorem State.complete_host : (s.complete st r0 r1 d).host = s.host := rfl

@[simp] theorem State.returnOk_msg : (s.returnOk r0 r1 d).msg = s.msg := rfl
@[simp] theorem State.returnOk_dbuf : (s.returnOk r0 r1 d).dbuf = s.dbuf := rfl
@[simp] theorem State.returnOk_status : (s.returnOk r0 r1 d).status = 0 := rfl
@[simp] theorem State.returnOk_res0 : (s.returnOk r0 r1 d).res0 = r0 := rfl
@[simp] theorem State.returnOk_res1 : (s.returnOk r0 r1 d).res1 = r1 := rfl
@[simp] theorem State.returnOk_response :
    (s.returnOk r0 r1 d).response = some { status := 0, rv0 := r0, rv1 := r1, data := d } := rfl
@[simp] theorem State.returnOk_host : (s.returnOk r0 r1 d).host = s.host := rfl

@[simp] theorem State.raise_msg : (s.raise x).msg = s.msg := rfl
@[simp] theorem State.raise_dbuf : (s.raise x).dbuf = s.dbuf := rfl
@[simp] theorem State.raise_status : (s.raise x).status = x.code := rfl
@[simp] theorem State.raise_res0 : (s.raise x).res0 = 0 := rfl
@[simp] theorem State.raise_res1 : (s.raise x).res1 = 0 := rfl
@[simp] theorem State.raise_response :
    (s.raise x).response = some { status := x.code, rv0 := 0, rv1 := 0, data := [] } := rfl
@[simp] theorem State.raise_host : (s.raise x).host = s.host := rfl

@[simp] theorem State.parseOk_msg : (s.parseOk m).msg = m := rfl
@[simp] theorem State.parseOk_dbuf : (s.parseOk m).dbuf = s.dbuf := rfl
@[simp] theorem State.parseOk_status : (s.parseOk m).status = 0 := rfl
@[simp] theorem State.parseOk_res0 : (s.parseOk m).res0 = 0 := rfl
@[simp] theorem State.parseOk_res1 : (s.parseOk m).res1 = 0 := rfl
@[simp] theorem State.parseOk_response :
    (s.parseOk m).response = some { status := 0, rv0 := 0, rv1 := 0, data := [] } := rfl
@[simp] theorem State.parseOk_host : (s.parseOk m).host = s.host := rfl

@[simp] theorem State.parseError_msg : (s.parseError x).msg = Message.cleared := rfl
@[simp] theorem State.parseError_dbuf : (s.parseError x).dbuf = s.dbuf := rfl
@[simp] theorem State.parseError_status : (s.parseError x).status = x.code := rfl
@[simp] theorem State.parseError_res0 : (s.parseError x).res0 = 0 := rfl
@[simp] theorem State.parseError_res1 : (s.parseError x).res1 = 0 := rfl
@[simp] theorem State.parseError_response :
    (s.parseError x).response = some { status := x.code, rv0 := 0, rv1 := 0, data := [] } := rfl
@[simp] theorem State.parseError_host : (s.parseError x).host = s.host := rfl

@[simp] theorem State.afterReset_msg : s.afterReset.msg = Message.cleared := rfl
@[simp] theorem State.afterReset_dbuf : s.afterReset.dbuf = { epoch := s.dbuf.epoch + 1, cells := [] } := rfl
@[simp] theorem State.afterReset_status : s.afterReset.status = 0 := rfl
@[simp] theorem State.afterReset_res0 : s.afterReset.res0 = 0 := rfl
@[simp] theorem State.afterReset_res1 : s.afterReset.res1 = 0 := rfl
@[simp] theorem State.afterReset_response : s.afterReset.response = none := rfl
@[simp] theorem State.afterReset_host : s.afterReset.host = s.host := rfl

@[simp] theorem State.endParse_error : s.endParse (.error x) = s.parseError x := rfl
@[simp] theorem State.endParse_ok : s.endParse (.ok m) = s.parseOk m := rfl
@[simp] theorem State.endParse_dbuf (r : Except Status Message) : (s.endParse r).dbuf = s.dbuf := by cases r <;> rfl
@[simp] theorem State.endParse_host (r : Except Status Message) : (s.endParse r).host = s.host := by cases r <;> rfl

/-- The version register is hard-wired (R21). -/
@[simp] theorem Message.ver_eq : m.ver = 1 := rfl

end Sys2Proof.Machine
end

