-- ==== Sys2Proof/Laws/Parse.lean ====
section
/-! SUPPORT. What each part of `PARSE` can do (40_parse R122 to R130): for every element one inversion lemma, for
`PARSE` and `PARSE_TMID` the cases of their outcome. None of these parts writes the buffer. -/

namespace Sys2Proof.Machine

theorem headerElement_eq_ok {t : MsgType} {k : Nibble} {code : Byte} {mid : MsgId} {m : Memory} {lim : Nat}
    {o : OptLoop} :
    headerElement t k code mid m lim = .ok o ↔
      k.toNat ≤ 8 ∧ 4 + k.toNat ≤ lim ∧
        o = { pos := { cur := 4 + k.toNat, lim := lim }, mtype := t, tkl := k, code := code, mid := mid,
              tok := m.readBytes 4 k.toNat, prev := 0, opts := [] } := by
  unfold headerElement
  by_cases h : Config.maxTkl < k.toNat
  · have : ¬ k.toNat ≤ 8 := by simpa [Config.maxTkl] using h
    simp [h, this]
  · have h8 : k.toNat ≤ 8 := by simpa [Config.maxTkl] using h
    rw [if_neg h]
    unfold rdBytes
    by_cases hl : lim < 4 + k.toNat
    · simp [hl]
    · simp only [hl, if_false, Except.ok.injEq, h8, true_and]
      exact ⟨fun h => ⟨by omega, h.symm⟩, fun h => h.2.symm⟩

theorem headerElement_eq_error {t : MsgType} {k : Nibble} {code : Byte} {mid : MsgId} {m : Memory} {lim : Nat}
    {x : Status} :
    headerElement t k code mid m lim = .error x ↔
      (8 < k.toNat ∧ x = .badTokenLength) ∨ (k.toNat ≤ 8 ∧ lim < 4 + k.toNat ∧ x = .truncatedToken) := by
  unfold headerElement rdBytes
  by_cases h : Config.maxTkl < k.toNat
  · have h8 : 8 < k.toNat := h
    have : ¬ k.toNat ≤ 8 := by omega
    simp [h, h8, this, eq_comm]
  · have h8 : k.toNat ≤ 8 := Nat.le_of_not_lt h
    have : ¬ 8 < k.toNat := by omega
    by_cases hl : lim < 4 + k.toNat <;> simp [h, h8, this, hl, eq_comm]

theorem readExt_eq_some {m : Memory} {c c' : Cursor} {x : Nibble} {v : Nat} :
    readExt m c x = some (v, c') ↔
      (extLen x = 0 ∨ c.cur + extLen x ≤ c.lim) ∧ v = extVal x (m.readInt c.cur (extLen x)) ∧
        c' = { c with cur := c.cur + extLen x } := by
  unfold readExt
  by_cases h0 : extLen x = 0
  · simp only [h0, if_true, Memory.readInt, Memory.readBytes, Nat.add_zero, true_or, true_and, Option.some.injEq,
      Prod.mk.injEq, beNat, List.foldl_nil]
    exact and_congr eq_comm eq_comm
  · rw [if_neg h0]
    unfold rd
    by_cases hl : c.lim < c.cur + extLen x
    · simp [hl, h0]
    · have : c.cur + extLen x ≤ c.lim := by omega
      simp [hl, this, eq_comm]

/-- A decoded delta or length, read through a cursor, is at most 65804 (R125). -/
theorem readExt_value_le {m : Memory} {c c' : Cursor} {x : Nibble} {v : Nat} (hx : x ≠ 15)
    (h : readExt m c x = some (v, c')) : v ≤ 65804 := by
  obtain ⟨-, rfl, -⟩ := readExt_eq_some.mp h
  refine extVal_le hx ?_
  have := beNat_lt (m.readBytes c.cur (extLen x))
  rwa [Memory.readBytes_length] at this

/-- Everything an option element does where it succeeds (R124 to R126). -/
theorem optionElement_eq_ok {dn ln : Nibble} {m : Memory} {o o' : OptLoop}
    (h : optionElement dn ln m o = .ok o') :
    dn ≠ 15 ∧ ln ≠ 15 ∧ ∃ delta length c1 c2,
      readExt m { o.pos with cur := o.pos.cur + 1 } dn = some (delta, c1) ∧
      readExt m c1 ln = some (length, c2) ∧ c2.cur + length ≤ c2.lim ∧
      o' = { o with
        pos := { c2 with cur := c2.cur + length }
        prev := o.prev + BitVec.ofNat Config.optNumW delta
        opts := o.opts ++ [{ num := o.prev + BitVec.ofNat Config.optNumW delta, val := m.readBytes c2.cur length }] } := by
  unfold optionElement at h
  split_ifs at h with hd hl
  refine ⟨hd, hl, ?_⟩
  split at h
  · cases h
  · rename_i delta c1 h1
    split at h
    · cases h
    · rename_i length c2 h2
      split at h
      · cases h
      · rename_i val c3 h3
        obtain ⟨hb, rfl, rfl⟩ := rdBytes_eq_some.mp h3
        exact ⟨delta, length, c1, c2, h1, h2, hb, by simpa using h.symm⟩

/-- An option element consumes its header byte at least and never passes the limit (R132). -/
theorem optionElement_advances {dn ln : Nibble} {m : Memory} {o o' : OptLoop}
    (h : optionElement dn ln m o = .ok o') :
    o.pos.cur < o'.pos.cur ∧ o'.pos.cur ≤ o'.pos.lim ∧ o'.pos.lim = o.pos.lim := by
  obtain ⟨-, -, delta, length, c1, c2, h1, h2, h3, rfl⟩ := optionElement_eq_ok h
  obtain ⟨-, -, rfl⟩ := readExt_eq_some.mp h1
  obtain ⟨-, -, rfl⟩ := readExt_eq_some.mp h2
  simp only at h3 ⊢
  exact ⟨by omega, h3, trivial⟩

theorem markerElement_eq_ok {m : Memory} {o : OptLoop} {pay : Bytes} :
    markerElement m o = .ok pay ↔
      o.pos.cur + 1 ≠ o.pos.lim ∧ pay = m.readBytes (o.pos.cur + 1) (o.pos.lim - (o.pos.cur + 1)) := by
  unfold markerElement
  split_ifs with h <;> simp [h, eq_comm]

/-- The byte class the loop acts on is the decoder's (30_encoding R96): one turn is one wire element. -/
theorem optionTurn_of_decode (m : Memory) (o : OptLoop) :
    optionTurn m o =
      if m.read o.pos.cur = 0xFF then
        (match markerElement m o with
          | .error x => .error x
          | .ok pay => .ok (.done (o.message pay)))
      else if highNibble (m.read o.pos.cur) = 15 then .error .badOptionDelta
      else if lowNibble (m.read o.pos.cur) = 15 then .error .badOptionLength
      else
        (match optionElement (highNibble (m.read o.pos.cur)) (lowNibble (m.read o.pos.cur)) m o with
          | .error x => .error x
          | .ok o' => .ok (.more o')) := by
  simp only [optionTurn]
  split_ifs with h1 h2 h3
  · rfl
  · rw [optionElement, if_pos h2]
  · rw [optionElement, if_neg h2, if_pos h3]
  · rfl

theorem optionTurn_advances {m : Memory} {o o' : OptLoop}
    (h : optionTurn m o = .ok (.more o')) :
    o.pos.cur < o'.pos.cur ∧ o'.pos.cur ≤ o'.pos.lim ∧ o'.pos.lim = o.pos.lim := by
  unfold optionTurn at h
  simp only at h
  split_ifs at h
  · split at h <;> simp at h
  · split at h
    · cases h
    · rename_i o1 h1
      obtain rfl : o1 = o' := by simpa using h
      exact optionElement_advances h1

/-- The loop's counter does not matter as long as it starts at `LIM - CUR` or above (R132). -/
theorem optionLoop_counter (m : Memory) (k : Nat) (o : OptLoop) (h : o.pos.lim - o.pos.cur ≤ k) :
    optionLoop m k o = optionLoop m (o.pos.lim - o.pos.cur) o := by
  induction k using Nat.strongRecOn generalizing o with
  | _ k ih =>
    by_cases hc : o.pos.cur < o.pos.lim
    · obtain ⟨d, hd⟩ : ∃ d, o.pos.lim - o.pos.cur = d + 1 := ⟨o.pos.lim - o.pos.cur - 1, by omega⟩
      obtain ⟨j, rfl⟩ : ∃ j, k = j + 1 := ⟨k - 1, by omega⟩
      rw [hd]
      simp only [optionLoop, if_pos hc]
      cases ht : optionTurn m o with
      | error x => rfl
      | ok r =>
        cases r with
        | done msg => rfl
        | more o' =>
          obtain ⟨h1, h2, h3⟩ := optionTurn_advances ht
          simp only
          rw [ih j (by omega) o' (by omega)]
          by_cases hjd : j = d
          · subst hjd
            rw [ih j (by omega) o' (by omega)]
          · rw [ih d (by omega) o' (by omega)]
    · have h0 : o.pos.lim - o.pos.cur = 0 := by omega
      rw [h0]
      cases k with
      | zero => rfl
      | succ j => simp [optionLoop, hc]

/-- The rest of a parse, one element unfolded: at the end of the datagram the message, else one turn and the rest. -/
theorem optionsFrom_eq (m : Memory) (o : OptLoop) :
    optionsFrom m o =
      if o.pos.cur < o.pos.lim then
        (match optionTurn m o with
          | .error x => .error x
          | .ok (.more o') => optionsFrom m o'
          | .ok (.done msg) => .ok msg)
      else .ok (o.message []) := by
  unfold optionsFrom
  by_cases hc : o.pos.cur < o.pos.lim
  · obtain ⟨d, hd⟩ : ∃ d, o.pos.lim - o.pos.cur = d + 1 := ⟨o.pos.lim - o.pos.cur - 1, by omega⟩
    rw [hd, if_pos hc]
    simp only [optionLoop, if_pos hc]
    cases ht : optionTurn m o with
    | error x => rfl
    | ok r =>
      cases r with
      | done msg => rfl
      | more o' =>
        obtain ⟨h1, h2, h3⟩ := optionTurn_advances ht
        exact optionLoop_counter m d o' (by omega)
  · rw [show o.pos.lim - o.pos.cur = 0 by omega, if_neg hc]
    rfl

/-- The limit of a parse is the datagram's length all the way. -/
theorem beforeOption_lim {m : Memory} {n k : Nat} {o : OptLoop} (h : beforeOption m n k = some o) : o.pos.lim = n := by
  induction k generalizing o with
  | zero =>
    unfold beforeOption readHeader at h
    split_ifs at h <;> simp [Except.toOption] at h
    split at h <;> simp at h
    subst h
    rename_i hq
    obtain ⟨-, -, rfl⟩ := headerElement_eq_ok.mp hq
    rfl
  | succ k ih =>
    cases hb : beforeOption m n k with
    | none => simp [beforeOption, hb] at h
    | some p =>
      simp only [beforeOption, hb] at h
      split_ifs at h
      split at h <;> simp at h
      subst h
      rename_i ht
      obtain ⟨-, -, e⟩ := optionTurn_advances ht
      rw [e, ih hb]

/-- A parse that gets to an option position ends as the rest of the datagram from there on ends. -/
theorem parseDatagram_of_beforeOption {m : Memory} {n k : Nat} {o : OptLoop} (h : beforeOption m n k = some o) :
    parseDatagram m n = optionsFrom m o := by
  induction k generalizing o with
  | zero =>
    cases hr : readHeader m n with
    | error x => simp [beforeOption, hr, Except.toOption] at h
    | ok o' =>
      obtain rfl : o' = o := by simpa [beforeOption, hr, Except.toOption] using h
      simp [parseDatagram, hr, Except.bind]
  | succ k ih =>
    cases hb : beforeOption m n k with
    | none => simp [beforeOption, hb] at h
    | some p =>
      rw [ih hb, optionsFrom_eq]
      simp only [beforeOption, hb] at h
      split_ifs at h with hc
      rw [if_pos hc]
      split at h
      · rename_i ht
        cases h
        rw [ht]
      · cases h
      · cases h

/-- The outcome of `PARSE` (R121, R128, R129): it always answers a next state. -/
theorem execParse_cases (n : Word) (s : State) (P : Config.Sizes := Config.hardware) :
    (P.maxBuffer < n.toNat ∧ execParse n s P = .next (s.raise .invalidArgument)) ∨
    (n.toNat ≤ P.maxBuffer ∧ execParse n s P = .next (s.endParse (parseDatagram s.dbuf n.toNat))) := by
  unfold execParse
  by_cases h : P.maxBuffer < n.toNat
  · exact .inl ⟨h, if_pos h⟩
  · exact .inr ⟨Nat.le_of_not_lt h, if_neg h⟩

end Sys2Proof.Machine
end

