-- ==== Sys2Proof/Laws/Exec.lean ====
section
/-! SUPPORT. What the shared shapes of the meanings can do (43_helpers R180, 44_buffer R220, R221, 41_serialize R157):
cited in place of unfolding them. -/

namespace Sys2Proof.Machine

theorem setter_eq (ok : Bool) (m : Message) (s : State) :
    setter ok m s = .next (if ok then { s with msg := m }.returnOk 0 0 [] else s.raise .invalidArgument) := by
  cases ok <;> rfl

theorem getter_eq (r0 r1 : Word) (d : Bytes) (s : State) : getter r0 r1 d s = .next (s.returnOk r0 r1 d) := rfl

theorem execOptGet_cases (i : Word) (s : State) :
    (s.msg.opt.length ≤ i.toNat ∧ execOptGet i s = .next (s.raise .invalidArgument)) ∨
    ∃ h : i.toNat < s.msg.opt.length,
      execOptGet i s = .next (s.returnOk (optNumWord (s.msg.opt[i.toNat]).num) (lenWord (s.msg.opt[i.toNat]).val.length)
        (s.msg.opt[i.toNat]).val) := by
  by_cases h : i.toNat < s.msg.opt.length
  · exact .inr ⟨h, by simp [execOptGet, List.getElem?_eq_getElem h, getter]⟩
  · exact .inl ⟨by omega, by simp [execOptGet, List.getElem?_eq_none (Nat.le_of_not_lt h)]⟩

theorem rangeFits_iff (a : Word) (k : Nat) (P : Config.Sizes := Config.hardware) :
    rangeFits a k P = true ↔ a.toNat ≤ P.maxBuffer ∧ a.toNat + k ≤ P.maxBuffer := by
  rw [rangeFits, Bool.and_eq_true, decide_eq_true_eq, decide_eq_true_eq]
  omega

theorem execBufWr_eq (a : Word) (d : Bytes) (s : State) (P : Config.Sizes := Config.hardware) :
    execBufWr a d s P =
      .next (if rangeFits a d.length P then { s with dbuf := s.dbuf.writeBytes a.toNat d }.returnOk 0 0 []
        else s.raise .invalidArgument) := by
  unfold execBufWr
  split_ifs <;> rfl

theorem execBufRd_eq (a k : Word) (s : State) (P : Config.Sizes := Config.hardware) :
    execBufRd a k s P =
      .next (if rangeFits a k.toNat P then s.returnOk 0 0 (s.dbuf.readBytes a.toNat k.toNat)
        else s.raise .invalidArgument) := by
  unfold execBufRd
  split_ifs <;> rfl

/-- The outcome of `PARSE_TMID` (42_partial_parse R170). -/
theorem execParseTmid_cases (n : Word) (s : State) (P : Config.Sizes := Config.hardware) :
    ∃ t, execParseTmid n s P = .next t ∧
      (t = s.raise .invalidArgument ∨ t = s.raise .shortHeader ∨ t = s.raise .badVersion ∨
        t = s.returnOk ((headerType (s.dbuf.read 0)).setWidth 32)
          ((midOf (s.dbuf.read 2) (s.dbuf.read 3)).setWidth 32) []) := by
  unfold execParseTmid
  split_ifs <;> simp

/-- The outcome of `SERIALIZE` (R157): a fault, an error that changes nothing but the result registers, or the image
written at offset 0 and its length returned. -/
theorem execSerialize_cases (cap : Word) (s : State) (P : Config.Sizes := Config.hardware) :
    (gapsFit 0 (stableSort s.msg.opt) = false ∧ execSerialize cap s P = .fault .invariantViolation) ∨
    (∃ x ∈ [Status.invalidArgument, Status.invalidTokenLength, Status.optionValueTooLong, Status.bufferTooSmall],
      execSerialize cap s P = .next (s.raise x)) ∨
    (cap.toNat ≤ P.maxBuffer ∧ s.msg.tkl.toNat ≤ 8 ∧ gapsFit 0 (stableSort s.msg.opt) = true ∧
      s.msg.image.length ≤ cap.toNat ∧ s.msg.encLen ≤ cap.toNat ∧
      execSerialize cap s P = .next ({ s with dbuf := s.dbuf.writeBytes 0 s.msg.image }.returnOk
        (lenWord s.msg.image.length) 0 [])) := by
  unfold execSerialize
  split_ifs with h1 h2 h3 h4 h5
  · exact .inr (.inl ⟨_, by simp, rfl⟩)
  · exact .inr (.inl ⟨_, by simp, rfl⟩)
  · exact .inr (.inl ⟨_, by simp, rfl⟩)
  · exact .inl ⟨h4, rfl⟩
  · exact .inr (.inl ⟨_, by simp, rfl⟩)
  · split
    · exact .inr (.inl ⟨_, by simp, rfl⟩)
    · rename_i m c hw
      obtain ⟨hc, rfl, rfl⟩ := wrBytes_eq_some.mp hw
      refine .inr (.inr ⟨Nat.le_of_not_lt h1, Nat.le_of_not_lt h2, by simpa using h4, by simpa using hc,
        Nat.le_of_not_lt h5, ?_⟩)
      simp

/-- Where a row at a header has a `PARSE` to run in. -/
theorem atHeader_eq_some {s t : State} {P : Config.Sizes} {n : Nat} :
    s.atHeader P = some (n, t) ↔
      ∃ w rest, s.host = .element w 0 :: rest ∧ 4 ≤ w.toNat ∧ w.toNat ≤ P.maxBuffer ∧ n = w.toNat ∧
        t = { s with host := rest } := by
  unfold State.atHeader
  split
  · rename_i w rest hh
    split_ifs with h <;> simp_all [eq_comm]
  · rename_i hh
    simp only [reduceCtorEq, false_iff]
    rintro ⟨w, rest, h, -⟩
    exact hh w rest h

/-- Where a row at an option position has a `PARSE` to run in. -/
theorem atOption_eq_some {s t : State} {P : Config.Sizes} {o : OptLoop} :
    s.atOption P = some (o, t) ↔
      ∃ w k rest, s.host = .element w (k + 1) :: rest ∧ w.toNat ≤ P.maxBuffer ∧
        beforeOption s.dbuf w.toNat k = some o ∧ o.pos.cur < o.pos.lim ∧ t = { s with host := rest } := by
  unfold State.atOption
  split
  · rename_i w k rest hh
    by_cases hn : w.toNat ≤ P.maxBuffer
    · cases hb : beforeOption s.dbuf w.toNat k with
      | none => simp_all
      | some p =>
        by_cases hc : p.pos.cur < p.pos.lim
        · simp only [hn, hc, if_true, Option.some.injEq, Prod.mk.injEq]
          constructor
          · rintro ⟨rfl, rfl⟩
            exact ⟨w, k, rest, hh, hn, hb, hc, rfl⟩
          · rintro ⟨w', k', rest', h, -, hb', -, rfl⟩
            simp_all
        · simp only [hn, hc, if_true, if_false, reduceCtorEq, false_iff]
          rintro ⟨w', k', rest', h, -, hb', hc', -⟩
          simp_all
          omega
    · simp only [hn, if_false, reduceCtorEq, false_iff]
      rintro ⟨w', k', rest', h, hn', -⟩
      simp_all
      omega
  · rename_i hh
    simp only [reduceCtorEq, false_iff]
    rintro ⟨w, k, rest, h, -⟩
    exact hh w k rest h

theorem runAtHeader_of_some {f : Nat → Except Status Message} {s t : State} {P : Config.Sizes} {n : Nat}
    (h : s.atHeader P = some (n, t)) : runAtHeader f s P = .next (t.endParse (f n)) := by
  simp [runAtHeader, h]

theorem runAtOption_of_some {f : OptLoop → Except Status Message} {s t : State} {P : Config.Sizes} {o : OptLoop}
    (h : s.atOption P = some (o, t)) : runAtOption f s P = .next (t.endParse (f o)) := by
  simp [runAtOption, h]

end Sys2Proof.Machine
end

