-- ==== Sys2Proof/Laws/PerInstr.lean ====
section
/-! SUPPORT. Facts about every instruction as syntax, one lemma per constructor. Family `RoundTrip`: decoding what the
encoder writes for a well-formed instruction gives the instruction back. -/

namespace Sys2Proof.Laws

theorem headerVer_headerByte0 (t : MsgType) (k : Nibble) : headerVer (headerByte0 1 t k) = 1 := by
  revert t k; decide

theorem headerType_headerByte0 (t : MsgType) (k : Nibble) : headerType (headerByte0 1 t k) = t := by
  revert t k; decide

theorem headerTkl_headerByte0 (t : MsgType) (k : Nibble) : headerTkl (headerByte0 1 t k) = k := by
  revert t k; decide

theorem midOf_midHi_midLo (m : MsgId) : midOf (midHi m) (midLo m) = m := by
  refine BitVec.eq_of_getLsbD_eq fun i hi => ?_
  simp only [midOf, midHi, midLo, BitVec.getLsbD_append, BitVec.getLsbD_extractLsb']
  split_ifs with h
  · simp [h]
  · have : i - 8 < 8 := by omega
    have h2 : 8 + (i - 8) = i := by omega
    simp [this, h2]

theorem highNibble_optionByte (dn ln : Nibble) : highNibble (optionByte dn ln) = dn := by
  revert dn ln; decide

theorem lowNibble_optionByte (dn ln : Nibble) : lowNibble (optionByte dn ln) = ln := by
  revert dn ln; decide

theorem optionByte_eq_marker {dn ln : Nibble} : optionByte dn ln = 0xFF ↔ dn = 15 ∧ ln = 15 := by
  revert dn ln; decide

namespace RoundTrip

/-- Decoding an encoded well-formed instruction gives it back. -/
def Statement (i : Instr) : Prop := i.wellFormed = true → decode (encode i) = .ok i

theorem msgClear : Statement .msgClear := fun _ => rfl
theorem parse (n : Word) : Statement (.parse n) := fun _ => rfl
theorem serialize (cap : Word) : Statement (.serialize cap) := fun _ => rfl
theorem parseTmid (n : Word) : Statement (.parseTmid n) := fun _ => rfl
theorem isEmpty : Statement .isEmpty := fun _ => rfl
theorem setType (t : Word) : Statement (.setType t) := fun _ => rfl
theorem getType : Statement .getType := fun _ => rfl
theorem setMid (m : Word) : Statement (.setMid m) := fun _ => rfl
theorem getMid : Statement .getMid := fun _ => rfl
theorem setToken (d : Bytes) : Statement (.setToken d) := fun _ => rfl
theorem getToken : Statement .getToken := fun _ => rfl
theorem getCodeClass : Statement .getCodeClass := fun _ => rfl
theorem getCodeDetail : Statement .getCodeDetail := fun _ => rfl
theorem setCode (k d : Word) : Statement (.setCode k d) := fun _ => rfl
theorem addOption (x : Word) (d : Bytes) : Statement (.addOption x d) := fun _ => rfl
theorem optCount : Statement .optCount := fun _ => rfl
theorem optGet (i : Word) : Statement (.optGet i) := fun _ => rfl
theorem setPayload (d : Bytes) : Statement (.setPayload d) := fun _ => rfl
theorem getPayload : Statement .getPayload := fun _ => rfl
theorem bufWr (a : Word) (d : Bytes) : Statement (.bufWr a d) := fun _ => rfl
theorem bufRd (a k : Word) : Statement (.bufRd a k) := fun _ => rfl

theorem wireHeader (t : MsgType) (k : Nibble) (code : Byte) (mid : MsgId) : Statement (.wireHeader t k code mid) :=
  fun _ => by
    simp only [encode, decode, decodeHeader, headerVer_headerByte0, headerType_headerByte0, headerTkl_headerByte0,
      midOf_midHi_midLo, if_true]

theorem wirePayloadMarker : Statement .wirePayloadMarker := fun _ => rfl

theorem wireReservedDelta (ln : Nibble) : Statement (.wireReservedDelta ln) := fun h => by
  have hl : ln ≠ 15 := by simpa [Instr.wellFormed] using h
  show Except.ok (decodeOptionByte (optionByte 15 ln)) = _
  rw [decodeOptionByte, if_neg (fun e => hl (optionByte_eq_marker.mp e).2), highNibble_optionByte,
    lowNibble_optionByte, if_pos rfl]

theorem wireReservedLength (dn : Nibble) : Statement (.wireReservedLength dn) := fun h => by
  have hd : dn ≠ 15 := by simpa [Instr.wellFormed] using h
  show Except.ok (decodeOptionByte (optionByte dn 15)) = _
  rw [decodeOptionByte, if_neg (fun e => hd (optionByte_eq_marker.mp e).1), highNibble_optionByte,
    lowNibble_optionByte, if_neg hd, if_pos rfl]

theorem wireOption (dn ln : Nibble) : Statement (.wireOption dn ln) := fun h => by
  obtain ⟨hd, hl⟩ : dn ≠ 15 ∧ ln ≠ 15 := by simpa [Instr.wellFormed] using h
  show Except.ok (decodeOptionByte (optionByte dn ln)) = _
  rw [decodeOptionByte, if_neg (fun e => hd (optionByte_eq_marker.mp e).1), highNibble_optionByte,
    lowNibble_optionByte, if_neg hd, if_neg hl]

end RoundTrip

end Sys2Proof.Laws
end

