-- ==== Sys2Proof/Laws/Step.lean ====
section
/-! SUPPORT. Everything a step can do, by the host's next event; and that this hardware is one of the family of
machines its sizes range over. -/

namespace Sys2Proof.Machine

theorem step_of_fetch_done {s t : State} (h : fetch s = .done t) : step s = .next t := by
  simp [step, h]

theorem step_of_fetch_run {s t : State} {i : Instr} (h : fetch s = .run i t) : step s = exec i t := by
  simp [step, h]

/-- What the fetch gives, by the host's next event. -/
theorem fetch_cases (s : State) (P : Config.Sizes := Config.hardware) :
    (s.host = [] ∧ fetch s P = .done s) ∨
    (∃ rest, s.host = .reset :: rest ∧ fetch s P = .done { s with host := rest }.afterReset) ∨
    (∃ c rest, s.host = .command c :: rest ∧ decodeCommand c = .error .badCommand ∧
      fetch s P = .done ({ s with host := rest }.raise .badCommand)) ∨
    (∃ c i rest, s.host = .command c :: rest ∧ decodeCommand c = .ok i ∧
      fetch s P = .run i { s with host := rest }) ∨
    (∃ n k rest i, s.host = .element n k :: rest ∧ s.elementRow P = some i ∧ fetch s P = .run i s) ∨
    (∃ n k rest, s.host = .element n k :: rest ∧ s.elementRow P = none ∧
      fetch s P = .run (.parse n) { s with host := rest }) := by
  cases hh : s.host with
  | nil => exact .inl ⟨rfl, by simp [fetch, hh]⟩
  | cons e rest =>
    cases e with
    | reset => exact .inr (.inl ⟨rest, rfl, by simp [fetch, hh]⟩)
    | command c =>
      cases hd : decodeCommand c with
      | ok i => exact .inr (.inr (.inr (.inl ⟨c, i, rest, rfl, hd, by simp [fetch, hh, hd]⟩)))
      | error r =>
        refine .inr (.inr (.inl ⟨c, rest, rfl, ?_, by simp [fetch, hh, hd]⟩))
        cases r with
        | badCommand => exact hd
        | badVersion =>
          unfold decodeCommand at hd
          split at hd <;> simp at hd
    | element n k =>
      cases hr : s.elementRow P with
      | none => exact .inr (.inr (.inr (.inr (.inr ⟨n, k, rest, rfl, rfl, by simp [fetch, hh, hr]⟩))))
      | some i => exact .inr (.inr (.inr (.inr (.inl ⟨n, k, rest, i, rfl, rfl, by simp [fetch, hh, hr]⟩))))

/-- This hardware is the block with the sizes of 00_scope R5. -/
theorem execOf_hardware (i : Instr) (s : State) : execOf Config.hardware i s = exec i s := by cases i <;> rfl

theorem stepOf_hardware (s : State) : stepOf Config.hardware s = step s := by
  unfold stepOf step
  cases fetch s with
  | done t => rfl
  | run i t => exact execOf_hardware i t

/-- A run of the machine goes through `step`, one step at a time. -/
theorem run_succ_of_next {k : Nat} {s t : State} (h : step s = .next t) :
    Host.Core.run Sys2Proof.core (k + 1) s = Host.Core.run Sys2Proof.core k t := by
  have : Sys2Proof.core.step s = .next t := h
  simp [Host.Core.run, this]

end Sys2Proof.Machine
end

