-- ==== Sys2Proof/Tests/Slice0.lean ====
section
/-! SUPPORT. The model's own tests. Expected results are those of the spec: words written out from the opcode table and
the field layouts, the examples in the rules and the vectors of spec/95_test_vectors.md (named in each comment), never
the model's own answers. Then a witness for the hypotheses of every statement that has some. -/

namespace Sys2Proof.Tests

open Sys2Proof.Machine

/-! ### Helpers -/

/-- The next state of an outcome, if it is one. -/
def nextOf (o : Host.Outcome State Fault Refusal) : Option State :=
  match o with
  | .next t => some t
  | .fault _ => none
  | .refused _ => none

/-- What an outcome presents: status, results, data. -/
def seen (o : Host.Outcome State Fault Refusal) : Option (Byte × Word × Word × Bytes) :=
  (nextOf o).map fun t =>
    (t.status, t.res0, t.res1, match t.response with
      | some r => r.data
      | none => [])

theorem next_of_status {o : Host.Outcome State Fault Refusal} {x : Byte} (h : (nextOf o).map (·.status) = some x) :
    ∃ u, o = .next u ∧ u.status = x := by
  cases o with
  | next t => exact ⟨t, rfl, by simpa [nextOf] using h⟩
  | fault r => simp [nextOf] at h
  | refused r => simp [nextOf] at h

/-- A state after reset with these bytes at offset 0 of the buffer. -/
def loaded (bs : Bytes) : State := { State.reset with dbuf := State.reset.dbuf.writeBytes 0 bs }

/-- The message of vector group T9, and its image. -/
def t9 : Message :=
  { mtype := 0, tkl := 2, token := tokenRegister [0xAA, 0xBB], code := 0x01, mid := 0x0102,
    opt := [⟨11, [0x61, 0x62]⟩, ⟨60, []⟩], pay := [0x78, 0x79] }

def t9Image : Bytes := [0x42, 0x01, 0x01, 0x02, 0xAA, 0xBB, 0xB2, 0x61, 0x62, 0xD0, 0x24, 0xFF, 0x78, 0x79]

/-- The message of the worked example of R163 (options unsorted), and its image. -/
def r163 : Message :=
  { mtype := 1, tkl := 0, token := tokenRegister [], code := 0x02, mid := 0xABCD,
    opt := [⟨11, [0x62]⟩, ⟨3, [0x61]⟩, ⟨11, [0x63]⟩, ⟨3, []⟩], pay := [0x68, 0x69] }

def r163Image : Bytes := [0x50, 0x02, 0xAB, 0xCD, 0x31, 0x61, 0x00, 0x81, 0x62, 0x01, 0x63, 0xFF, 0x68, 0x69]

def holding (m : Message) : State := { State.reset with msg := m }

/-- A state with these bytes in the buffer and, next from the host, `PARSE n` taken up at its element `k` (log 1). -/
def parsing (bs : Bytes) (n : Word) (k : Nat) : State := { loaded bs with host := [.element n k] }

/-! ### Well-formedness: an ill-formed term for each check -/

theorem test_reserved_delta_with_length_15_is_ill_formed : (Instr.wireReservedDelta 15).wellFormed = false := by decide
theorem test_reserved_length_with_delta_15_is_ill_formed : (Instr.wireReservedLength 15).wellFormed = false := by decide
theorem test_option_with_delta_15_is_ill_formed : (Instr.wireOption 15 0).wellFormed = false := by decide
theorem test_option_with_length_15_is_ill_formed : (Instr.wireOption 0 15).wellFormed = false := by decide

/-! ### Decoding: the `encoding` column of the opcode table, bit by bit -/

theorem test_decode_msg_clear : decodeTableWord 8 0b00000001 = some .msgClear := by decide
theorem test_decode_parse : decode (.command ⟨0b00000010, 9, 7, [1]⟩) = .ok (.parse 9) := by decide
theorem test_decode_serialize : decode (.command ⟨0b00000011, 9, 7, [1]⟩) = .ok (.serialize 9) := by decide
theorem test_decode_parse_tmid : decode (.command ⟨0b00000100, 9, 7, [1]⟩) = .ok (.parseTmid 9) := by decide
theorem test_decode_is_empty : decodeTableWord 8 0b00010000 = some .isEmpty := by decide
theorem test_decode_set_type : decode (.command ⟨0b00010001, 9, 7, [1]⟩) = .ok (.setType 9) := by decide
theorem test_decode_get_type : decodeTableWord 8 0b00010010 = some .getType := by decide
theorem test_decode_set_mid : decode (.command ⟨0b00010011, 9, 7, [1]⟩) = .ok (.setMid 9) := by decide
theorem test_decode_get_mid : decodeTableWord 8 0b00010100 = some .getMid := by decide
theorem test_decode_set_token : decode (.command ⟨0b00010101, 9, 7, [1]⟩) = .ok (.setToken [1]) := by decide
theorem test_decode_get_token : decodeTableWord 8 0b00010110 = some .getToken := by decide
theorem test_decode_get_code_class : decodeTableWord 8 0b00010111 = some .getCodeClass := by decide
theorem test_decode_get_code_detail : decodeTableWord 8 0b00011000 = some .getCodeDetail := by decide
theorem test_decode_set_code : decode (.command ⟨0b00011001, 9, 7, [1]⟩) = .ok (.setCode 9 7) := by decide
theorem test_decode_add_option : decode (.command ⟨0b00011010, 9, 7, [1]⟩) = .ok (.addOption 9 [1]) := by decide
theorem test_decode_opt_count : decodeTableWord 8 0b00011011 = some .optCount := by decide
theorem test_decode_opt_get : decode (.command ⟨0b00011100, 9, 7, [1]⟩) = .ok (.optGet 9) := by decide
theorem test_decode_set_payload : decode (.command ⟨0b00011101, 9, 7, [1]⟩) = .ok (.setPayload [1]) := by decide
theorem test_decode_get_payload : decodeTableWord 8 0b00011110 = some .getPayload := by decide
theorem test_decode_buf_wr : decode (.command ⟨0b00100000, 9, 7, [1]⟩) = .ok (.bufWr 9 [1]) := by decide
theorem test_decode_buf_rd : decode (.command ⟨0b00100001, 9, 7, [1]⟩) = .ok (.bufRd 9 7) := by decide

/-- `01tt kkkk cccd dddd m*16`: ACK, TKL 4, 2.05, 0x1234 (S1). -/
theorem test_decode_wire_header :
    decodeTableWord 32 0b01100100010001010001001000110100 = some (.wireHeader 0b10 0b0100 0b01000101 0x1234) := by decide

theorem test_decode_wire_payload_marker : decodeTableWord 8 0b11111111 = some .wirePayloadMarker := by decide
theorem test_decode_wire_reserved_delta : decodeTableWord 8 0b11111110 = some (.wireReservedDelta 0b1110) := by decide
theorem test_decode_wire_reserved_length : decodeTableWord 8 0b00001111 = some (.wireReservedLength 0b0000) := by decide
theorem test_decode_wire_option : decodeTableWord 8 0b10110111 = some (.wireOption 0b1011 0b0111) := by decide

/-- T12, R82: what the decoder rejects, by name. -/
theorem test_decode_rejects_by_name :
    decode (.command ⟨0x00, 7, 7, [0xAA]⟩) = .error .badCommand ∧ decode (.command ⟨0x1F, 0, 0, []⟩) = .error .badCommand ∧
      decode (.header 0x80 0x01 0x12 0x34) = .error .badVersion := by decide

/-- R34: one code of each kind, and the boundaries 0.31 and 7.31. -/
theorem test_code_kind :
    codeKind 0x00 = .empty ∧ codeKind 0x01 = .request ∧ codeKind 0x1F = .request ∧ codeKind 0x45 = .response ∧
      codeKind 0x84 = .response ∧ codeKind 0xA0 = .response ∧ codeKind 0x20 = .invalid ∧ codeKind 0xFF = .invalid := by
  decide

/-- R83: the type numbers in byte 0 (T1: `40`, `50`, `60`, `70`). -/
theorem test_type_numbers :
    [MsgType.con, MsgType.non, MsgType.ack, MsgType.rst].map (fun t => headerByte0 1 t 0) = [0x40, 0x50, 0x60, 0x70] := by
  decide

/-- R103: what the pseudo-commands decode to. -/
theorem test_pseudo_commands :
    (newRstCommands 0x1234).map decodeCommand = [.ok .msgClear, .ok (.setType 3), .ok (.setMid 0x1234)] ∧
    (newAckCommands 0x1234).map decodeCommand = [.ok .msgClear, .ok (.setType 2), .ok (.setMid 0x1234)] ∧
    (loadCommands [0x40]).map decodeCommand = [.ok (.bufWr 0 [0x40])] ∧
    (forEachOptionCommands 2).map decodeCommand = [.ok .optCount, .ok (.optGet 0), .ok (.optGet 1)] := by
  refine ⟨rfl, rfl, rfl, rfl⟩

/-! ### Commands -/

/-- R181 example: the cleared message serializes to `40 00 00 00`. -/
theorem test_msg_clear : (nextOf (exec .msgClear (holding t9))).map (·.msg.image) = some [0x40, 0x00, 0x00, 0x00] := by
  decide

/-- R182, T6.2: code 0.00 with a token is still empty. -/
theorem test_is_empty : seen (exec .isEmpty (holding { t9 with code := 0 })) = some (0x00, 1, 0, []) := by decide

/-- T10.2. -/
theorem test_set_type : (nextOf (exec (.setType 3) State.reset)).map (·.msg.mtype) = some 3 := by decide

/-- T10.3: no truncation to two bits. -/
theorem test_set_type_high_bits : seen (exec (.setType 0x100) State.reset) = some (0x20, 0, 0, []) := by decide

/-- P2 line 3. -/
theorem test_get_type : seen (exec .getType (holding { t9 with mtype := 2 })) = some (0x00, 2, 0, []) := by decide

/-- T10.4, T10.5. -/
theorem test_set_mid : (nextOf (exec (.setMid 0xFFFF) State.reset)).map (·.msg.mid) = some 0xFFFF := by decide
theorem test_set_mid_too_large : seen (exec (.setMid 0x10000) State.reset) = some (0x20, 0, 0, []) := by decide

/-- T9's message id. -/
theorem test_get_mid : seen (exec .getMid (holding t9)) = some (0x00, 0x0102, 0, []) := by decide

/-- T10.8: old token bytes are zeroed. -/
theorem test_set_token :
    (nextOf (exec (.setToken [0x11]) (holding t9))).map (fun t => t.msg.token.toList) = some [0x11, 0, 0, 0, 0, 0, 0, 0] := by
  decide

/-- T10.7: nine bytes are refused. -/
theorem test_set_token_too_long : seen (exec (.setToken [1, 2, 3, 4, 5, 6, 7, 8, 9]) State.reset) = some (0x20, 0, 0, []) := by
  decide

/-- R188 on T9's token. -/
theorem test_get_token : seen (exec .getToken (holding t9)) = some (0x00, 2, 0, [0xAA, 0xBB]) := by decide

/-- R189, R190 examples: code 0x45. -/
theorem test_get_code_class : seen (exec .getCodeClass (holding { t9 with code := 0x45 })) = some (0x00, 2, 0, []) := by decide
theorem test_get_code_detail : seen (exec .getCodeDetail (holding { t9 with code := 0x45 })) = some (0x00, 5, 0, []) := by
  decide

/-- T10.10, T10.11. -/
theorem test_set_code : (nextOf (exec (.setCode 2 5) State.reset)).map (·.msg.code) = some 0x45 := by decide
theorem test_set_code_detail_32 : seen (exec (.setCode 0 32) State.reset) = some (0x20, 0, 0, []) := by decide

/-- T10.17: duplicates kept, insertion order. -/
theorem test_add_option :
    (nextOf (exec (.addOption 2 []) (holding { t9 with opt := [⟨5, [1]⟩, ⟨5, [2]⟩] }))).map (·.msg.opt)
      = some [⟨5, [1]⟩, ⟨5, [2]⟩, ⟨2, []⟩] := by decide

/-- T10.16. -/
theorem test_add_option_number_too_large : seen (exec (.addOption 65805 []) State.reset) = some (0x20, 0, 0, []) := by decide

/-- P5 line 13. -/
theorem test_opt_count : seen (exec .optCount (holding r163)) = some (0x00, 4, 0, []) := by decide

/-- T7.8: insertion order; T10.18: an index at the count. -/
theorem test_opt_get : seen (exec (.optGet 1) (holding r163)) = some (0x00, 3, 1, [0x61]) := by decide
theorem test_opt_get_at_count : seen (exec (.optGet 4) (holding r163)) = some (0x20, 0, 0, []) := by decide

/-- T10.24. -/
theorem test_set_payload : (nextOf (exec (.setPayload []) (holding t9))).map (·.msg.pay) = some [] := by decide
theorem test_get_payload : seen (exec .getPayload (holding { t9 with pay := [0x4F, 0x4B] })) = some (0x00, 2, 0, [0x4F, 0x4B]) := by
  decide

/-- T11.6. -/
theorem test_buf_wr :
    (nextOf (exec (.bufWr 2 [0xAA]) (loaded [0x49, 0x01, 0xBE, 0xEF]))).map (fun t => t.dbuf.readBytes 0 4)
      = some [0x49, 0x01, 0xAA, 0xEF] := by decide

/-- T11.3. -/
theorem test_buf_wr_past_the_end : seen (exec (.bufWr 1021 [0, 0, 0, 0]) State.reset) = some (0x20, 0, 0, []) := by decide

/-- T11.1, T11.5: the sum must not wrap. -/
theorem test_buf_rd : seen (exec (.bufRd 1 2) (loaded [0x49, 0x01, 0xBE, 0xEF])) = some (0x00, 0, 0, [0x01, 0xBE]) := by decide
theorem test_buf_rd_no_wrap : seen (exec (.bufRd 0xFFFFFFFF 2) State.reset) = some (0x20, 0, 0, []) := by decide

/-- T9, k = 14: the full message. -/
theorem test_parse : (nextOf (exec (.parse 14) (loaded t9Image))).map (·.msg) = some t9 := by decide

/-- T5.6: the nibble tests come before the extension reads. -/
theorem test_parse_length_nibble_first :
    seen (exec (.parse 5) (loaded [0x40, 0x01, 0x12, 0x34, 0xDF])) = some (0x08, 0, 0, []) := by decide

/-- T8.2: TKL 15 is not looked at. -/
theorem test_parse_tmid : seen (exec (.parseTmid 4) (loaded [0x5F, 0x01, 0xBE, 0xEF])) = some (0x00, 1, 0xBEEF, []) := by decide
theorem test_parse_tmid_version_2 : seen (exec (.parseTmid 4) (loaded [0x89, 0x01, 0xBE, 0xEF])) = some (0x02, 0, 0, []) := by
  decide

/-- R163: sorted on the wire, 14 bytes; T7.7: 13 are too few. -/
theorem test_serialize :
    (nextOf (exec (.serialize 14) (holding r163))).map (fun t => (t.res0, t.dbuf.readBytes 0 14)) = some (14, r163Image) := by
  decide
theorem test_serialize_too_small : seen (exec (.serialize 13) (holding r163)) = some (0x10, 0, 0, []) := by decide

/-! ### Wire-format rows -/

/-- T4.8: TKL 15; R163's header with no token and no options behind it. -/
theorem test_wire_header :
    seen (exec (.wireHeader 0 15 1 0x1234) (parsing [0x4F, 0x01, 0x12, 0x34] 4 0)) = some (0x03, 0, 0, []) := by decide
theorem test_wire_header_alone :
    (nextOf (exec (.wireHeader 1 0 2 0xABCD) (parsing [0x50, 0x02, 0xAB, 0xCD] 4 0))).map (·.msg)
      = some { r163 with opt := [], pay := [] } := by decide

/-- T9: its first option by itself, and with what stands behind it. -/
theorem test_wire_option :
    (nextOf (exec (.wireOption 11 2) (parsing t9Image 9 1))).map (·.msg.opt) = some [⟨11, [0x61, 0x62]⟩] ∧
      (nextOf (exec (.wireOption 11 2) (parsing t9Image 14 1))).map (·.msg) = some t9 := by decide

/-- T9: its second option (delta 49), the sum running on; T4.11: a missing extension byte. -/
theorem test_wire_option_second :
    (nextOf (exec (.wireOption 13 0) (parsing t9Image 14 2))).map (·.msg.opt) = some t9.opt := by decide
theorem test_wire_option_truncated :
    seen (exec (.wireOption 13 0) (parsing [0x40, 0x01, 0x12, 0x34, 0xD0] 5 1)) = some (0x05, 0, 0, []) := by decide

/-- T4: `H FF FF` has payload `FF`; T4.24: a bare marker. -/
theorem test_wire_payload_marker :
    (nextOf (exec .wirePayloadMarker (parsing [0x40, 0x01, 0x12, 0x34, 0xFF, 0xFF] 6 1))).map (·.msg.pay) = some [0xFF] := by
  decide
theorem test_wire_payload_marker_bare :
    seen (exec .wirePayloadMarker (parsing [0x40, 0x01, 0x12, 0x34, 0xFF] 5 1)) = some (0x09, 0, 0, []) := by decide

/-- T4.19, T4.21. -/
theorem test_wire_reserved_delta :
    seen (exec (.wireReservedDelta 14) (parsing [0x40, 0x01, 0x12, 0x34, 0xFE] 5 1)) = some (0x07, 0, 0, []) := by decide
theorem test_wire_reserved_length :
    seen (exec (.wireReservedLength 0) (parsing [0x40, 0x01, 0x12, 0x34, 0x0F] 5 1)) = some (0x08, 0, 0, []) := by decide

/-- A block of other sizes than this hardware. -/
def smallSizes : Config.Sizes := { maxBuffer := 5, nOpt := 1, vstoreSize := 2, maxOptNumberSet := 10 }

/-- R5: sizes as the argument, and what these refuse: numbers above 10, a second entry, 3 bytes in the store, byte 5. -/
theorem test_other_sizes :
    smallSizes.admissible ∧
      seen (execOf smallSizes (.addOption 11 []) State.reset) = some (0x20, 0, 0, []) ∧
      seen (execOf smallSizes (.addOption 10 [1, 2]) State.reset) = some (0x00, 0, 0, []) ∧
      seen (execOf smallSizes (.addOption 0 []) (holding { Message.cleared with opt := [⟨10, []⟩] })) = some (0x20, 0, 0, []) ∧
      seen (execOf smallSizes (.setPayload [1, 2, 3]) State.reset) = some (0x20, 0, 0, []) ∧
      seen (execOf smallSizes (.bufWr 4 [1, 2]) State.reset) = some (0x20, 0, 0, []) := by
  refine ⟨?_, ?_, ?_, ?_, ?_, ?_⟩ <;> decide

/-! ### Steps -/

/-- P6 line 1: an illegal opcode, whatever its operands. -/
theorem test_step_bad_command :
    seen (step { holding t9 with host := [.command ⟨0x00, 7, 7, [0xAA]⟩] }) = some (0x21, 0, 0, []) := by decide

/-- Table words placed for the next step run there (logs 2, 3, 17): a command, a header, option-position bytes. -/
theorem test_with_fetch_word :
    seen (step (State.reset.withFetchWord 8 0x10)) = some (0x00, 1, 0, []) ∧
      ((nextOf (step (State.reset.withFetchWord 32 0x52450007))).map (fun t => (t.status, t.msg.code, t.msg.mid)))
        = some (0x00, 0x45, 7) ∧
      seen (step (State.reset.withFetchWord 8 0xF0)) = some (0x07, 0, 0, []) ∧
      ((nextOf (step (State.reset.withFetchWord 8 0xB2))).map (·.msg.opt)) = some [⟨11, [0, 0]⟩] := by decide

/-- A `PARSE` taken up at an element it never gets to is `PARSE`: T9 ends with its element 3, the marker. -/
theorem test_step_element_not_reached :
    (nextOf (step (parsing t9Image 14 4))).map (·.msg) = some t9 := by decide

/-! ### Witnesses: concrete states and operands that meet the hypotheses of each statement, clause by clause -/

/-- The variables of the parse of T9 before its second option. -/
def t9Second : OptLoop :=
  { pos := ⟨9, 14⟩, mtype := 0, tkl := 2, code := 0x01, mid := 0x0102, tok := [0xAA, 0xBB], prev := 11,
    opts := [⟨11, [0x61, 0x62]⟩] }

theorem t9_wf : t9.wf := by decide
theorem t9_image : t9.image = t9Image := by decide
theorem t9_gap : t9.gapProperty := by unfold Message.gapProperty; decide
theorem r163_wf : r163.wf := by decide
theorem good_state : (holding r163).good := by decide

/-- A message whose only option number has no encoding. -/
def farOption : Message := { t9 with opt := [⟨65805, []⟩] }

theorem witness_DecodeEncodeAgree :
    (Instr.wireOption 14 14).wellFormed = true ∧ decode (.header 0x4F 0xFF 0xFF 0xFF) = .ok (.wireHeader 0 15 0xFF 0xFFFF) ∧
      decode (.optionPosition 0xFF) = .ok .wirePayloadMarker ∧ decode (.command ⟨0x01, 1, 1, [1]⟩) = .ok .msgClear := by
  decide

theorem witness_OptionPositionBytes :
    (0xFF#8).toNat = 0xFF ∧ (0xF0 ≤ (0xF0#8).toNat ∧ (0xFE#8).toNat ≤ 0xFE) ∧
      ((0xEF#8).toNat / 16 < 15 ∧ (0xEF#8).toNat % 16 = 15) ∧ ((0xEE#8).toNat / 16 < 15 ∧ (0xEE#8).toNat % 16 < 15) := by
  decide

theorem witness_ExtensionsAreUnique :
    (65804 ≤ 65804) ∧ ((14 : Nibble) ≠ 15 ∧ ([0xFF, 0xFF] : Bytes).length = extLen 14) ∧
      ((12 : Nibble) ≠ 15 ∧ ([] : Bytes).length = extLen 12) := by decide

theorem witness_StepRunsDecodedCommand :
    ∃ (s : State) (c : Command) (rest : List HostEvent) (i : Instr),
      s.host = .command c :: rest ∧ decodeCommand c = .ok i :=
  ⟨{ State.reset with host := [.command ⟨0x11, 3, 0, []⟩, .reset] }, _, _, _, rfl, rfl⟩

theorem witness_StepRunsDecodedElement :
    (∃ i, (parsing t9Image 4 0).host = .element 4 0 :: [] ∧ 4 ≤ (4 : Word).toNat ∧ (4 : Word).toNat ≤ 1024 ∧
      decodeHeader ((parsing t9Image 4 0).dbuf.read 0) ((parsing t9Image 4 0).dbuf.read 1)
        ((parsing t9Image 4 0).dbuf.read 2) ((parsing t9Image 4 0).dbuf.read 3) = .ok i) ∧
    (∃ o, (parsing t9Image 14 2).host = .element 14 (1 + 1) :: [] ∧ (14 : Word).toNat ≤ 1024 ∧
      beforeOption (parsing t9Image 14 2).dbuf (14 : Word).toNat 1 = some o ∧ o.pos.cur < o.pos.lim) :=
  ⟨⟨.wireHeader 0 2 0x01 0x0102, rfl, by decide, by decide, by decide⟩,
    ⟨t9Second, rfl, by decide, by decide, by decide⟩⟩

theorem witness_IllegalOpcodesEndInBadCommand :
    (∀ op ∈ ([0x00, 0x05, 0x0F, 0x1F, 0x22, 0xFF] : List Byte),
      op.toNat = 0x00 ∨ (0x05 ≤ op.toNat ∧ op.toNat ≤ 0x0F) ∨ op.toNat = 0x1F ∨ 0x22 ≤ op.toNat) ∧
    ∃ (s : State) (rest : List HostEvent), s.host = .command ⟨0x22, 7, 7, [0xAA]⟩ :: rest :=
  ⟨by decide, { State.reset with host := [.command ⟨0x22, 7, 7, [0xAA]⟩] }, _, rfl⟩

theorem witness_IdleBlockHoldsItsState : (holding t9).host = [] := rfl

theorem witness_ResetEventRestoresResetState :
    ∃ (s : State) (rest : List HostEvent), s.host = .reset :: rest :=
  ⟨{ holding t9 with host := [.reset, .reset] }, _, rfl⟩

theorem witness_IsEmptyTestsTheCodeAlone : (holding { t9 with code := 0 }).msg.code = 0x00 ∧ (holding t9).msg.code ≠ 0x00 := by
  decide

theorem witness_SetTypeResult : 3 < (4 : Word).toNat ∧ (3 : Word).toNat ≤ 3 := by decide
theorem witness_SetMidResult : 0xFFFF < (0x10000 : Word).toNat ∧ (0xFFFF : Word).toNat ≤ 0xFFFF := by decide

theorem witness_SetTokenResult :
    8 < ([1, 2, 3, 4, 5, 6, 7, 8, 9] : Bytes).length ∧ ([1, 2, 3, 4, 5, 6, 7, 8] : Bytes).length ≤ 8 := by decide

theorem witness_SetTokenThenGetToken :
    ([1, 2, 3, 4, 5, 6, 7, 8] : Bytes).length ≤ 8 ∧ ∃ t, exec (.setToken [1, 2, 3, 4, 5, 6, 7, 8]) (holding t9) = .next t :=
  ⟨by decide, _, rfl⟩

theorem witness_GetTokenResult : (holding t9).msg.tkl.toNat ≤ 8 := by decide

theorem witness_SetCodeResult :
    7 < (8 : Word).toNat ∧ 31 < (32 : Word).toNat ∧ (7 : Word).toNat ≤ 7 ∧ (31 : Word).toNat ≤ 31 := by decide

theorem witness_AddOptionResult_refused :
    65804 < (65805 : Word).toNat ∧ 65804 < (List.replicate 65805 (0 : Byte)).length ∧
      (holding { t9 with opt := List.replicate 1020 ⟨0, []⟩ }).msg.opt.length = 1020 ∧
      1024 < (r163.opt.map fun e => e.val.length).sum + r163.pay.length + (List.replicate 1020 (0 : Byte)).length := by
  refine ⟨by decide, ?_, ?_, ?_⟩
  · rw [List.length_replicate]; decide
  · exact List.length_replicate
  · rw [List.length_replicate]; decide

theorem witness_AddOptionResult_added :
    (65804 : Word).toNat ≤ 65804 ∧ (List.replicate 1019 (0 : Byte)).length ≤ 65804 ∧ r163.opt.length ≠ 1020 ∧
      (r163.opt.map fun e => e.val.length).sum + r163.pay.length + (List.replicate 1019 (0 : Byte)).length ≤ 1024 := by
  refine ⟨by decide, ?_, by decide, ?_⟩
  · rw [List.length_replicate]; decide
  · rw [List.length_replicate]; decide

theorem witness_OptGetResult :
    (holding r163).msg.opt.length ≤ (4 : Word).toNat ∧ (3 : Word).toNat < (holding r163).msg.opt.length := by decide

theorem witness_AddOptionThenOptGet :
    (∃ t, exec (.addOption 65804 [1]) (holding r163) = .next t ∧ t.status = 0x00) ∧
      (4 : Word).toNat = (holding r163).msg.opt.length ∧ (3 : Word).toNat < (holding r163).msg.opt.length :=
  ⟨next_of_status (by decide), by decide, by decide⟩

theorem witness_SetPayloadResult :
    1024 < (r163.opt.map fun e => e.val.length).sum + (List.replicate 1022 (0 : Byte)).length ∧
      (r163.opt.map fun e => e.val.length).sum + (List.replicate 1021 (0 : Byte)).length ≤ 1024 := by
  rw [List.length_replicate, List.length_replicate]; decide

theorem witness_BufWrResult :
    1024 < (1025 : Word).toNat ∧ 1024 - (1021 : Word).toNat < ([0, 0, 0, 0] : Bytes).length ∧
      ((1024 : Word).toNat ≤ 1024 ∧ ([] : Bytes).length ≤ 1024 - (1024 : Word).toNat) ∧
      ((1020 : Word).toNat ≤ 1024 ∧ ([0, 0, 0, 0] : Bytes).length ≤ 1024 - (1020 : Word).toNat) := by decide

theorem witness_BufRdResult :
    1024 < (0xFFFFFFFF : Word).toNat ∧ 1024 - (1024 : Word).toNat < (1 : Word).toNat ∧
      ((0 : Word).toNat ≤ 1024 ∧ (1024 : Word).toNat ≤ 1024 - (0 : Word).toNat) := by decide

theorem witness_ParseOperandCheck : 1024 < (1025 : Word).toNat ∧ (1024 : Word).toNat ≤ 1024 ∧ (0 : Word).toNat = 0 := by decide

/-- Clause by clause: n = 3; version 2; TKL 9; TKL 8 with 11 bytes (T4.3, T4.5, T4.7, T4.10). -/
theorem witness_ParseHeaderErrors :
    (3 : Word).toNat < 4 ∧
    (4 ≤ (4 : Word).toNat ∧ ((loaded [0x80]).dbuf.read 0).toNat / 64 ≠ 1) ∧
    (4 ≤ (4 : Word).toNat ∧ ((loaded [0x49]).dbuf.read 0).toNat / 64 = 1 ∧ 8 < ((loaded [0x49]).dbuf.read 0).toNat % 16) ∧
    (4 ≤ (11 : Word).toNat ∧ (11 : Word).toNat ≤ 1024 ∧ ((loaded [0x48]).dbuf.read 0).toNat / 64 = 1 ∧
      ((loaded [0x48]).dbuf.read 0).toNat % 16 ≤ 8 ∧ (11 : Word).toNat < 4 + ((loaded [0x48]).dbuf.read 0).toNat % 16) := by
  decide

theorem witness_ParseErrorClearsMessage :
    ∃ u, exec (.parse 12) (loaded t9Image) = .next u ∧ u.status ≠ 0x00 ∧ u.status ≠ 0x20 := by
  obtain ⟨u, hu, hs⟩ : ∃ u, exec (.parse 12) (loaded t9Image) = .next u ∧ u.status = 0x09 := next_of_status (by decide)
  exact ⟨u, hu, by rw [hs]; decide, by rw [hs]; decide⟩

theorem witness_ParseDeliversTheMessage :
    t9.wf ∧ t9.image.length = (14 : Word).toNat ∧ (14 : Word).toNat ≤ 1024 ∧
      (loaded t9Image).dbuf.readBytes 0 (14 : Word).toNat = t9.image := by decide

theorem witness_ParseAfterSerialize :
    (holding r163).msg.wf ∧ ∃ u, exec (.serialize 14) (holding r163) = .next u ∧ u.status = 0x00 :=
  ⟨r163_wf, next_of_status (by decide)⟩

/-- The premise shared by the statements about a successful `PARSE`, with `n ≤ cap ≤ 1024` for `SerializeAfterParse`. -/
theorem witness_SuccessfulParse :
    (∃ u, exec (.parse 14) (loaded t9Image) = .next u ∧ u.status = 0x00) ∧
      (14 : Word).toNat ≤ (14 : Word).toNat ∧ (14 : Word).toNat ≤ 1024 :=
  ⟨next_of_status (by decide), by decide, by decide⟩

theorem witness_ParseNeverOverflows :
    smallSizes.admissible ∧
      ∃ u, execOf smallSizes (.parse 4) (loaded [0x40, 0x01, 0x12, 0x34]) = .next u ∧ u.status = 0x00 :=
  ⟨by decide, next_of_status (by decide)⟩

/-- The prefixes of T9, one for each row of R136's table: k = 3, 5, 6, 10, 12 and 13 of 14 bytes. -/
theorem witness_ParseOfTruncatedImage :
    t9.wf ∧ t9.image.length ≤ 1024 ∧
    (∀ k ∈ ([3, 5, 6, 10, 12, 13] : List Word), k.toNat < t9.image.length ∧
      (loaded t9Image).dbuf.readBytes 0 k.toNat = t9.image.take k.toNat) ∧
    (let e := fun j => 4 + t9.tkl.toNat + (optionsImage 0 ((stableSort t9.opt).take j)).length
     3 < 4 ∧ (4 ≤ 5 ∧ 5 < 4 + t9.tkl.toNat) ∧ 6 = e 0 ∧ (e 1 < 10 ∧ 10 < e 2) ∧ 12 = e 2 + 1 ∧ e 2 + 1 < 13) := by
  rw [t9_image]
  refine ⟨t9_wf, by decide, fun k hk => ?_, by decide⟩
  simp only [List.mem_cons, List.not_mem_nil, or_false] at hk
  rcases hk with rfl | rfl | rfl | rfl | rfl | rfl <;> decide

theorem witness_TruncatedPayloadIsNeverRaised :
    ∃ u, exec .getType (holding t9) = .next u := ⟨_, rfl⟩

theorem witness_ParseReadsOnlyTheDatagram :
    (4 : Word).toNat ≤ 1024 ∧ ∀ a, a < (4 : Word).toNat →
      (loaded t9Image).dbuf.read a = ({ loaded (t9Image ++ [0xEE]) with msg := r163 } : State).dbuf.read a := by decide

theorem witness_ParseTmidResult :
    1024 < (1025 : Word).toNat ∧ (3 : Word).toNat < 4 ∧
      (4 ≤ (4 : Word).toNat ∧ (4 : Word).toNat ≤ 1024 ∧ ((loaded [0x89]).dbuf.read 0).toNat / 64 ≠ 1) ∧
      (4 ≤ (1024 : Word).toNat ∧ (1024 : Word).toNat ≤ 1024 ∧ ((loaded [0x49]).dbuf.read 0).toNat / 64 = 1) := by decide

/-- Clause by clause: a full parse, a version error, a token length error (T8.3, T8.7, T8.1). -/
theorem witness_ParseTmidAgreesWithParse :
    (∃ u, exec (.parse 14) (loaded t9Image) = .next u ∧ u.status = 0x00) ∧
    (∃ u, exec (.parse 4) (loaded [0x89, 0x01, 0xBE, 0xEF]) = .next u ∧ u.status = 0x02) ∧
    (∃ u, exec (.parse 4) (loaded [0x49, 0x01, 0xBE, 0xEF]) = .next u ∧ u.status = 0x03) :=
  ⟨next_of_status (by decide), next_of_status (by decide), next_of_status (by decide)⟩

theorem witness_ParseIsTheRunOfItsElements : (parsing t9Image 14 2).host = .element 14 2 :: [] := rfl

theorem witness_SerializeWritesTheImage :
    (14 : Word).toNat ≤ 1024 ∧ (holding t9).msg.tkl.toNat ≤ 8 ∧ (∀ e ∈ (holding t9).msg.opt, e.val.length ≤ 65804) ∧
      (holding t9).msg.gapProperty ∧ (holding t9).msg.encLen ≤ (14 : Word).toNat :=
  ⟨by decide, by decide, by decide, t9_gap, by decide⟩

theorem witness_SerializeErrors :
    1024 < (1025 : Word).toNat ∧ 8 < (holding { t9 with tkl := 9 }).msg.tkl.toNat ∧
      (∃ e ∈ (holding { t9 with opt := [⟨0, List.replicate 65805 0⟩] }).msg.opt, 65804 < e.val.length) ∧
      ((holding t9).msg.gapProperty ∧ (13 : Word).toNat < (holding t9).msg.encLen) := by
  refine ⟨by decide, by decide, ⟨⟨0, List.replicate 65805 0⟩, List.mem_singleton.mpr rfl, ?_⟩, t9_gap, by decide⟩
  rw [List.length_replicate]; decide

theorem witness_UnencodableDeltaFaults :
    (1024 : Word).toNat ≤ 1024 ∧ (holding farOption).msg.tkl.toNat ≤ 8 ∧
      (∀ e ∈ (holding farOption).msg.opt, e.val.length ≤ 65804) ∧ ¬ (holding farOption).msg.gapProperty := by
  refine ⟨by decide, by decide, by decide, fun h => ?_⟩
  have := h 0 (by decide)
  revert this
  decide

theorem witness_SerializeTwiceIsTheSame : ∃ u, exec (.serialize 14) (holding r163) = .next u ∧ u.status = 0x00 :=
  next_of_status (by decide)

theorem witness_WireHeaderResult :
    (parsing [0x48] 11 0).host = .element 11 0 :: [] ∧ 4 ≤ (11 : Word).toNat ∧ (11 : Word).toNat ≤ 1024 ∧
      8 < (9 : Nibble).toNat ∧ ((8 : Nibble).toNat ≤ 8 ∧ (11 : Word).toNat < 4 + (8 : Nibble).toNat) ∧
      ((7 : Nibble).toNat ≤ 8 ∧ 4 + (7 : Nibble).toNat ≤ (11 : Word).toNat) ∧
      (11 : Word).toNat = 4 + (7 : Nibble).toNat := by decide

/-- The second option of T9 (`D0 24`, offsets 9 and 10): complete and last with 11 bytes, complete with 14, truncated
with 10. -/
theorem witness_WireOptionResult :
    ∀ n ∈ ([10, 11, 14] : List Word), (parsing t9Image n 2).host = .element n (1 + 1) :: [] ∧ n.toNat ≤ 1024 ∧
      (13 : Nibble) ≠ 15 ∧ (0 : Nibble) ≠ 15 ∧
      ∃ o, beforeOption (parsing t9Image n 2).dbuf n.toNat 1 = some o ∧ o.pos.cur < o.pos.lim ∧
        o.pos.cur + 1 + extLen 13 + extLen 0 + extVal 0 0 = 11 := by
  intro n hn
  simp only [List.mem_cons, List.not_mem_nil, or_false] at hn
  rcases hn with rfl | rfl | rfl <;>
    exact ⟨rfl, by decide, by decide, by decide, { t9Second with pos := ⟨9, _⟩ }, rfl, by decide, by decide⟩

/-- A marker that is the last byte, and one with a payload byte behind it; the same position serves the reserved rows. -/
theorem witness_WirePayloadMarkerResult :
    ∀ n ∈ ([12, 13] : List Word), (parsing t9Image n 3).host = .element n (2 + 1) :: [] ∧ n.toNat ≤ 1024 ∧
      ∃ o, beforeOption (parsing t9Image n 3).dbuf n.toNat 2 = some o ∧ o.pos.cur < o.pos.lim ∧ o.pos.cur + 1 = 12 := by
  intro n hn
  simp only [List.mem_cons, List.not_mem_nil, or_false] at hn
  rcases hn with rfl | rfl <;>
    exact ⟨rfl, by decide, { t9Second with pos := ⟨11, _⟩, prev := 60, opts := t9.opt }, rfl, by decide, by decide⟩

theorem witness_WireReservedResults :
    (parsing [0x40, 0x01, 0x12, 0x34, 0xFE] 5 1).host = .element 5 (0 + 1) :: [] ∧ (5 : Word).toNat ≤ 1024 ∧
      ∃ o, beforeOption (parsing [0x40, 0x01, 0x12, 0x34, 0xFE] 5 1).dbuf (5 : Word).toNat 0 = some o ∧
        o.pos.cur < o.pos.lim := ⟨rfl, by decide, _, rfl, by decide⟩

theorem witness_StepKeepsGood :
    ({ holding r163 with host := [.command ⟨0x10, 0, 0, []⟩] } : State).good ∧
      (∃ t, step { holding r163 with host := [.command ⟨0x10, 0, 0, []⟩] } = .next t) ∧
      Config.hardware.admissible := ⟨by decide, ⟨_, rfl⟩, by decide⟩

theorem witness_GoodStatesNeverStop : (holding r163).good := good_state

theorem witness_OnlyBufWrAndSerializeWriteTheBuffer :
    (∃ t, exec (.parse 14) (loaded t9Image) = .next t ∧ t.status = 0x00) ∧ (∀ a d, Instr.parse 14 ≠ .bufWr a d) ∧
      ∀ cap, Instr.parse 14 ≠ .serialize cap :=
  ⟨next_of_status (by decide), fun _ _ h => (by cases h), fun _ h => (by cases h)⟩

/-- One command outside every clause's exception list, so that every clause's premise holds. -/
theorem witness_MessageFieldsHaveTheirWriters :
    Instr.isCommand .optCount = true ∧ (∃ t, exec .optCount (holding t9) = .next t) ∧ Instr.optCount ≠ .msgClear ∧
      (∀ n, Instr.optCount ≠ .parse n) ∧ (∀ v, Instr.optCount ≠ .setType v) ∧ (∀ d, Instr.optCount ≠ .setToken d) ∧
      (∀ k d, Instr.optCount ≠ .setCode k d) ∧ (∀ v, Instr.optCount ≠ .setMid v) ∧
      (∀ x d, Instr.optCount ≠ .addOption x d) ∧ ∀ d, Instr.optCount ≠ .setPayload d := by
  refine ⟨rfl, ⟨_, rfl⟩, ?_, ?_, ?_, ?_, ?_, ?_, ?_, ?_⟩ <;> intros <;> simp

theorem witness_InvalidArgumentChangesNothing :
    Instr.isCommand (.optGet 4) = true ∧ ∃ t, exec (.optGet 4) (holding r163) = .next t ∧ t.status = 0x20 :=
  ⟨rfl, next_of_status (by decide)⟩

theorem witness_EveryCommandLatchesItsResponse :
    (∃ t, exec (.optGet 4) (holding r163) = .next t ∧ t.status = 0x20) ∧
      ∃ t, exec (.optGet 1) (holding r163) = .next t ∧ t.status = 0x00 :=
  ⟨next_of_status (by decide), next_of_status (by decide)⟩

end Sys2Proof.Tests
end

section
/-! SUPPORT. What any instruction can do to the state, said once (`Ending`, `execOf_ending`), with the facts about
messages and decoded datagrams it rests on; from it the statements about the state (10_state R20 to R39). -/

namespace Sys2Proof.Machine

/-! ### The gap property without the order (10_state R39) -/

/-- Every number of the table is at most `MAX_OPT_DELTA` above `p`, or above a smaller number of the table: the gap
property, said of the table in any order. -/
def InReach (p : Nat) (opt : List OptEntry) : Prop :=
  ∀ e ∈ opt, e.num.toNat - p ≤ Config.maxOptDelta ∨
    ∃ e' ∈ opt, e'.num.toNat < e.num.toNat ∧ e.num.toNat - e'.num.toNat ≤ Config.maxOptDelta

theorem InReach.append {p : Nat} {opt : List OptEntry} {e : OptEntry} (h : InReach p opt)
    (he : e.num.toNat - p ≤ Config.maxOptDelta ∨
      ∃ e' ∈ opt, e'.num.toNat < e.num.toNat ∧ e.num.toNat - e'.num.toNat ≤ Config.maxOptDelta) :
    InReach p (opt ++ [e]) := by
  intro x hx
  have old : x.num.toNat - p ≤ Config.maxOptDelta ∨
      ∃ e' ∈ opt, e'.num.toNat < x.num.toNat ∧ x.num.toNat - e'.num.toNat ≤ Config.maxOptDelta := by
    rcases List.mem_append.mp hx with hx | hx
    · exact h x hx
    · exact List.mem_singleton.mp hx ▸ he
  exact old.imp_right fun ⟨e', hm, hlt⟩ => ⟨e', List.mem_append_left _ hm, hlt⟩

theorem gapsFit_iff_inReach {p : Nat} {opt : List OptEntry} (hp : ∀ e ∈ opt, p ≤ e.num.toNat)
    (hs : opt.Pairwise (fun a b => a.num.toNat ≤ b.num.toNat)) : gapsFit p opt = true ↔ InReach p opt := by
  induction opt generalizing p with
  | nil => simp [gapsFit, InReach]
  | cons a rest ih =>
    obtain ⟨ha, hr⟩ := List.pairwise_cons.mp hs
    have hpa : p ≤ a.num.toNat := hp a List.mem_cons_self
    rw [gapsFit, Bool.and_eq_true, decide_eq_true_eq, ih ha hr]
    constructor
    · rintro ⟨hgap, hrest⟩ e he
      rcases List.mem_cons.mp he with rfl | he
      · exact .inl hgap
      rcases hrest e he with hle | ⟨e', he', hlt⟩
      · rcases (ha e he).lt_or_eq with hlt | heq
        · exact .inr ⟨a, List.mem_cons_self, hlt, hle⟩
        · exact .inl (heq ▸ hgap)
      · exact .inr ⟨e', List.mem_cons_of_mem _ he', hlt⟩
    · intro h
      constructor
      · rcases h a List.mem_cons_self with hle | ⟨e', he', hlt, -⟩
        · exact hle
        · rcases List.mem_cons.mp he' with rfl | he'
          · omega
          · have := ha e' he'
            omega
      · intro e he
        rcases h e (List.mem_cons_of_mem _ he) with hle | ⟨e', he', hlt, hle⟩
        · exact .inl (by omega)
        · rcases List.mem_cons.mp he' with rfl | he'
          · exact .inl hle
          · exact .inr ⟨e', he', hlt, hle⟩

theorem stableSort_sorted (opt : List OptEntry) :
    (stableSort opt).Pairwise (fun a b => a.num.toNat ≤ b.num.toNat) := by
  have : Std.Total (fun a b : OptEntry => a.num.toNat ≤ b.num.toNat) := ⟨fun _ _ => Nat.le_total _ _⟩
  have : IsTrans OptEntry (fun a b => a.num.toNat ≤ b.num.toNat) := ⟨fun _ _ _ => Nat.le_trans⟩
  exact List.pairwise_insertionSort _ _

/-- The gap property of a table does not depend on its order, so adding an option need not look into the sort. -/
theorem gapsFit_stableSort {opt : List OptEntry} : gapsFit 0 (stableSort opt) = true ↔ InReach 0 opt := by
  rw [gapsFit_iff_inReach (fun _ _ => Nat.zero_le _) (stableSort_sorted opt)]
  simp only [InReach, mem_stableSort]

/-! ### What a parse ends with (40_parse R122 to R130) -/

/-- The statuses a parse of a datagram can end with (40_parse R129). -/
def parseErrors : List Status :=
  [.shortHeader, .badVersion, .badTokenLength, .truncatedToken, .truncatedOption, .badOptionDelta, .badOptionLength,
    .missingPayloadAfterMarker]

theorem headerElement_error_mem {t : MsgType} {k : Nibble} {code : Byte} {mid : MsgId} {m : Memory} {lim : Nat}
    {x : Status} (h : headerElement t k code mid m lim = .error x) : x ∈ parseErrors := by
  rcases headerElement_eq_error.mp h with ⟨-, rfl⟩ | ⟨-, -, rfl⟩ <;> simp [parseErrors]

theorem readHeader_error_mem {m : Memory} {n : Nat} {x : Status} (h : readHeader m n = .error x) :
    x ∈ parseErrors := by
  unfold readHeader at h
  split_ifs at h
  · cases h; simp [parseErrors]
  · cases h; simp [parseErrors]
  · exact headerElement_error_mem h

theorem readHeader_eq_ok {m : Memory} {n : Nat} {o : OptLoop} (h : readHeader m n = .ok o) :
    headerElement (headerType (m.read 0)) (headerTkl (m.read 0)) (m.read 1) (midOf (m.read 2) (m.read 3)) m n
      = .ok o := by
  unfold readHeader at h
  split_ifs at h
  exact h

theorem optionElement_error_mem {dn ln : Nibble} {m : Memory} {o : OptLoop} {x : Status}
    (h : optionElement dn ln m o = .error x) : x ∈ parseErrors := by
  unfold optionElement at h
  split_ifs at h
  · cases h; simp [parseErrors]
  · cases h; simp [parseErrors]
  · split at h
    · cases h; simp [parseErrors]
    · split at h
      · cases h; simp [parseErrors]
      · split at h
        · cases h; simp [parseErrors]
        · cases h

theorem markerElement_error_mem {m : Memory} {o : OptLoop} {x : Status} (h : markerElement m o = .error x) :
    x ∈ parseErrors := by
  unfold markerElement at h
  split_ifs at h
  cases h
  simp [parseErrors]

/-- One turn of the option loop is the marker element or an option element, by the byte that stands there (R124). -/
theorem optionTurn_cases (m : Memory) (o : OptLoop) :
    (m.read o.pos.cur = 0xFF ∧ optionTurn m o = (markerElement m o).map (fun pay => .done (o.message pay))) ∨
    (m.read o.pos.cur ≠ 0xFF ∧ optionTurn m o =
      (optionElement (highNibble (m.read o.pos.cur)) (lowNibble (m.read o.pos.cur)) m o).map .more) := by
  unfold optionTurn
  by_cases h : m.read o.pos.cur = 0xFF
  · refine .inl ⟨h, ?_⟩
    simp only [h, if_true]
    cases markerElement m o <;> rfl
  · refine .inr ⟨h, ?_⟩
    simp only [h, if_false]
    cases optionElement (highNibble (m.read o.pos.cur)) (lowNibble (m.read o.pos.cur)) m o <;> rfl

theorem optionTurn_eq_more {m : Memory} {o o' : OptLoop} (h : optionTurn m o = .ok (.more o')) :
    ∃ dn ln, optionElement dn ln m o = .ok o' := by
  rcases optionTurn_cases m o with ⟨-, he⟩ | ⟨-, he⟩
  · rw [he] at h
    cases hm : markerElement m o <;> simp [hm, Except.map] at h
  · rw [he] at h
    cases hm : optionElement (highNibble (m.read o.pos.cur)) (lowNibble (m.read o.pos.cur)) m o with
    | error x => simp [hm, Except.map] at h
    | ok o1 =>
      obtain rfl : o1 = o' := by simpa [hm, Except.map] using h
      exact ⟨_, _, hm⟩

theorem optionTurn_eq_done {m : Memory} {o : OptLoop} {msg : Message} (h : optionTurn m o = .ok (.done msg)) :
    ∃ pay, markerElement m o = .ok pay ∧ msg = o.message pay := by
  rcases optionTurn_cases m o with ⟨-, he⟩ | ⟨-, he⟩
  · rw [he] at h
    cases hm : markerElement m o with
    | error x => simp [hm, Except.map] at h
    | ok pay => exact ⟨pay, rfl, by simpa [hm, Except.map] using h.symm⟩
  · rw [he] at h
    cases hm : optionElement (highNibble (m.read o.pos.cur)) (lowNibble (m.read o.pos.cur)) m o <;>
      simp [hm, Except.map] at h

theorem optionTurn_error_mem {m : Memory} {o : OptLoop} {x : Status} (h : optionTurn m o = .error x) :
    x ∈ parseErrors := by
  rcases optionTurn_cases m o with ⟨-, he⟩ | ⟨-, he⟩
  · rw [he] at h
    cases hm : markerElement m o with
    | error y =>
      obtain rfl : y = x := by simpa [hm, Except.map] using h
      exact markerElement_error_mem hm
    | ok pay => simp [hm, Except.map] at h
  · rw [he] at h
    cases hm : optionElement (highNibble (m.read o.pos.cur)) (lowNibble (m.read o.pos.cur)) m o with
    | error y =>
      obtain rfl : y = x := by simpa [hm, Except.map] using h
      exact optionElement_error_mem hm
    | ok pay => simp [hm, Except.map] at h

/-- The induction over the option loop, once: whatever every option element keeps holds where the loop ends, which is
an error of R129, or a message without payload at the end of the datagram, or one with the payload behind a marker. -/
theorem optionsFrom_cases {I : OptLoop → Prop} {m : Memory} {o : OptLoop}
    (hI : ∀ dn ln o o', I o → optionElement dn ln m o = .ok o' → I o') (ho : I o) :
    (∃ x ∈ parseErrors, optionsFrom m o = .error x) ∨
    ∃ o' pay, I o' ∧ optionsFrom m o = .ok (o'.message pay) ∧
      (o'.pos.lim ≤ o'.pos.cur ∧ pay = [] ∨ o'.pos.cur < o'.pos.lim ∧ markerElement m o' = .ok pay) := by
  generalize hk : o.pos.lim - o.pos.cur = k
  induction k using Nat.strongRecOn generalizing o with
  | _ k ih =>
    rw [optionsFrom_eq]
    by_cases hc : o.pos.cur < o.pos.lim
    · simp only [if_pos hc]
      cases ht : optionTurn m o with
      | error x => exact .inl ⟨x, optionTurn_error_mem ht, rfl⟩
      | ok r =>
        cases r with
        | done msg =>
          obtain ⟨pay, hp, rfl⟩ := optionTurn_eq_done ht
          exact .inr ⟨o, pay, ho, rfl, .inr ⟨hc, hp⟩⟩
        | more o' =>
          obtain ⟨dn, ln, he⟩ := optionTurn_eq_more ht
          obtain ⟨hadv, hle, hlim⟩ := optionElement_advances he
          exact ih _ (by omega) (hI dn ln o o' ho he) rfl
    · simp only [if_neg hc]
      exact .inr ⟨o, [], ho, rfl, .inl ⟨Nat.le_of_not_lt hc, rfl⟩⟩

/-- What the header gives and every option element keeps holds at every option position a parse gets to. -/
theorem beforeOption_keeps {I : OptLoop → Prop} {m : Memory} {n k : Nat} {o : OptLoop}
    (hhead : ∀ o, readHeader m n = .ok o → I o)
    (hI : ∀ dn ln o o', I o → optionElement dn ln m o = .ok o' → I o') (h : beforeOption m n k = some o) :
    I o := by
  induction k generalizing o with
  | zero =>
    cases hr : readHeader m n with
    | error x => simp [beforeOption, hr, Except.toOption] at h
    | ok o' =>
      obtain rfl : o' = o := by simpa [beforeOption, hr, Except.toOption] using h
      exact hhead _ hr
  | succ k ih =>
    cases hb : beforeOption m n k with
    | none => simp [beforeOption, hb] at h
    | some p =>
      simp only [beforeOption, hb] at h
      split_ifs at h
      split at h
      · rename_i ht
        cases h
        obtain ⟨dn, ln, he⟩ := optionTurn_eq_more ht
        exact hI dn ln p _ (ih hb) he
      · cases h
      · cases h

/-! ### The variables of a parse stay inside the datagram (R132, R134) -/

/-- What holds of the variables at an option position in a datagram of `n` bytes: every option so far took a byte
besides its value, and the running number is that of the last option. -/
structure OptLoop.Fits (n : Nat) (o : OptLoop) : Prop where
  tkl_le : o.tkl.toNat ≤ 8
  tok_length : o.tok.length = o.tkl.toNat
  lim_eq : o.pos.lim = n
  cur_le : o.pos.cur ≤ n
  room : 4 + o.opts.length + optBytes o.opts ≤ o.pos.cur
  val_le : ∀ e ∈ o.opts, e.val.length ≤ Config.maxOptValue
  inReach : InReach 0 o.opts
  prev_eq : o.prev = 0 ∨ ∃ e ∈ o.opts, e.num = o.prev

theorem headerElement_fits {t : MsgType} {k : Nibble} {code : Byte} {mid : MsgId} {m : Memory} {n : Nat} {o : OptLoop}
    (h : headerElement t k code mid m n = .ok o) : o.Fits n := by
  obtain ⟨hk, hn, rfl⟩ := headerElement_eq_ok.mp h
  exact
    { tkl_le := hk
      tok_length := Memory.readBytes_length _ _ _
      lim_eq := rfl
      cur_le := hn
      room := Nat.le_add_right _ _
      val_le := by simp
      inReach := by simp [InReach]
      prev_eq := .inl rfl }

theorem readHeader_fits {m : Memory} {n : Nat} {o : OptLoop} (h : readHeader m n = .ok o) : o.Fits n :=
  headerElement_fits (readHeader_eq_ok h)

/-- A number `delta` above a number in reach is in reach; where the sum wraps it is below `delta`. -/
theorem inReach_add {opt : List OptEntry} {prev : OptNum} {delta : Nat} {val : Bytes} (h : InReach 0 opt)
    (hp : prev = 0 ∨ ∃ e ∈ opt, e.num = prev) (hd : delta ≤ 65804) :
    InReach 0 (opt ++ [{ num := prev + BitVec.ofNat Config.optNumW delta, val := val }]) := by
  have hsum : (prev + BitVec.ofNat Config.optNumW delta).toNat = (prev.toNat + delta) % 4294967296 := by
    simp [BitVec.toNat_add, Config.optNumW]
  have hlt : prev.toNat < 4294967296 := prev.isLt
  refine h.append ?_
  simp only [hsum, Config.maxOptDelta]
  rcases hp with rfl | ⟨e, he, rfl⟩
  · have hz : (0 : OptNum).toNat = 0 := rfl
    exact .inl (by omega)
  · rcases Nat.eq_zero_or_pos delta with rfl | hpos
    · rw [Nat.add_zero, Nat.mod_eq_of_lt hlt]
      exact h e he
    · by_cases hw : e.num.toNat + delta < 4294967296
      · exact .inr ⟨e, he, by omega, by omega⟩
      · exact .inl (by omega)

theorem optionElement_fits {dn ln : Nibble} {m : Memory} {n : Nat} {o o' : OptLoop} (ho : o.Fits n)
    (h : optionElement dn ln m o = .ok o') : o'.Fits n := by
  obtain ⟨hdn, hln, delta, length, c1, c2, h1, h2, hend, rfl⟩ := optionElement_eq_ok h
  have hdelta := readExt_value_le hdn h1
  have hlength := readExt_value_le hln h2
  obtain ⟨-, -, rfl⟩ := readExt_eq_some.mp h1
  obtain ⟨-, -, rfl⟩ := readExt_eq_some.mp h2
  have hlim := ho.lim_eq
  have hroom := ho.room
  simp only at hend
  exact
    { tkl_le := ho.tkl_le
      tok_length := ho.tok_length
      lim_eq := hlim
      cur_le := by simp only; omega
      room := by
        simp only [List.length_append, List.length_singleton, optBytes_append, optBytes_singleton,
          Memory.readBytes_length]
        omega
      val_le := fun e he => by
        rcases List.mem_append.mp he with he | he
        · exact ho.val_le e he
        · rw [List.mem_singleton.mp he, Memory.readBytes_length]
          exact hlength
      inReach := inReach_add ho.inReach ho.prev_eq hdelta
      prev_eq := .inr ⟨_, List.mem_append_right _ (List.mem_singleton_self _), rfl⟩ }

theorem beforeOption_fits {m : Memory} {n k : Nat} {o : OptLoop} (h : beforeOption m n k = some o) : o.Fits n :=
  beforeOption_keeps (fun _ => readHeader_fits) (fun _ _ _ _ => optionElement_fits) h

/-- What the parse of a datagram that fits the buffer ends with: an error of R129, or the message of variables that
fit, with a payload from behind the marker. -/
inductive ParseResult (P : Config.Sizes) : Except Status Message → Prop where
  | error {x : Status} (hx : x ∈ parseErrors) : ParseResult P (.error x)
  | ok {n : Nat} {o : OptLoop} {pay : Bytes} (hn : n ≤ P.maxBuffer) (ho : o.Fits n)
      (hpay : pay.length ≤ n - (o.pos.cur + 1)) : ParseResult P (.ok (o.message pay))

theorem markerElement_length {m : Memory} {n : Nat} {o : OptLoop} {pay : Bytes} (ho : o.Fits n)
    (h : markerElement m o = .ok pay) : pay.length ≤ n - (o.pos.cur + 1) := by
  obtain ⟨-, rfl⟩ := markerElement_eq_ok.mp h
  rw [Memory.readBytes_length, ho.lim_eq]

section
variable {P : Config.Sizes} {m : Memory} {n : Nat} (hn : n ≤ P.maxBuffer)
include hn

theorem optionsFrom_result {o : OptLoop} (ho : o.Fits n) : ParseResult P (optionsFrom m o) := by
  rcases optionsFrom_cases (fun _ _ _ _ => optionElement_fits) ho with ⟨x, hx, he⟩ | ⟨o', pay, ho', he, hpay⟩
  · exact he ▸ .error hx
  · rw [he]
    rcases hpay with ⟨-, rfl⟩ | ⟨-, hm⟩
    · exact .ok hn ho' (Nat.zero_le _)
    · exact .ok hn ho' (markerElement_length ho' hm)

/-- An element and the options behind it. -/
theorem bind_optionsFrom_result {r : Except Status OptLoop} (herr : ∀ x, r = .error x → x ∈ parseErrors)
    (hok : ∀ o, r = .ok o → o.Fits n) : ParseResult P (r.bind (optionsFrom m)) := by
  cases r with
  | error x => exact .error (herr x rfl)
  | ok o => exact optionsFrom_result hn (hok o rfl)

theorem parseDatagram_result : ParseResult P (parseDatagram m n) :=
  bind_optionsFrom_result hn (fun _ => readHeader_error_mem) (fun _ => readHeader_fits)

theorem markerElement_result {o : OptLoop} (ho : o.Fits n) : ParseResult P ((markerElement m o).map o.message) := by
  cases hm : markerElement m o with
  | error x => exact .error (markerElement_error_mem hm)
  | ok pay => exact .ok hn ho (markerElement_length ho hm)

end

/-! ### How any instruction ends -/

/-- The setters: the message each puts in place where its checks pass (43_helpers R181 to R195). -/
inductive Sets (P : Config.Sizes) (s : State) : Instr → Message → Prop where
  | clear : Sets P s .msgClear Message.cleared
  | setType (t : Word) : Sets P s (.setType t) { s.msg with mtype := t.setWidth 2 }
  | setMid (v : Word) : Sets P s (.setMid v) { s.msg with mid := v.setWidth 16 }
  | setToken {d : Bytes} (hd : d.length ≤ Config.maxTkl) :
      Sets P s (.setToken d) { s.msg with tkl := BitVec.ofNat 4 d.length, token := tokenRegister d }
  | setCode (k d : Word) : Sets P s (.setCode k d) { s.msg with code := codeOf k d }
  | addOption {x : Word} {d : Bytes} (hx : x.toNat ≤ P.maxOptNumberSet) (hd : d.length ≤ Config.maxOptValue)
      (hcount : s.msg.opt.length ≠ P.nOpt) (hstore : s.msg.storeUse + d.length ≤ P.vstoreSize) :
      Sets P s (.addOption x d) { s.msg with opt := s.msg.opt ++ [{ num := optNumOfWord x, val := d }] }
  | setPayload {d : Bytes} (hstore : optBytes s.msg.opt + d.length ≤ P.vstoreSize) :
      Sets P s (.setPayload d) { s.msg with pay := d }

/-- Every way an instruction can answer a next state: an error, an answer, a message set, a range of the buffer
written, a parse ended. -/
inductive Ending (P : Config.Sizes) (i : Instr) (s : State) : State → Prop where
  | raise {x : Status} (hx : x ≠ .truncatedPayload) : Ending P i s (s.raise x)
  | answer (r0 r1 : Word) (d : Bytes) : Ending P i s (s.returnOk r0 r1 d)
  | set {m : Message} (hm : Sets P s i m) : Ending P i s ({ s with msg := m }.returnOk 0 0 [])
  | write {a : Nat} {d : Bytes} {r0 : Word} (hi : (∃ a d, i = .bufWr a d) ∨ ∃ cap, i = .serialize cap)
      (hd : a + d.length ≤ P.maxBuffer) : Ending P i s ({ s with dbuf := s.dbuf.writeBytes a d }.returnOk r0 0 [])
  | parse {r : Except Status Message} {rest : List HostEvent}
      (hi : i.isCommand = true → rest = s.host ∧ ∃ n, i = .parse n) (hr : ParseResult P r) :
      Ending P i s ({ s with host := rest }.endParse r)

section
variable {P : Config.Sizes} {i : Instr} {s t : State}

theorem setter_ending {ok : Bool} {m : Message} (h : setter ok m s = .next t) (hm : ok = true → Sets P s i m) :
    Ending P i s t := by
  rw [setter_eq] at h
  cases h
  cases ok with
  | true => exact .set (hm rfl)
  | false => exact .raise (by decide)

theorem getter_ending {r0 r1 : Word} {d : Bytes} (h : getter r0 r1 d s = .next t) : Ending P i s t := by
  cases h
  exact .answer r0 r1 d

theorem execParse_ending {n : Word} (h : execParse n s P = .next t) : Ending P (.parse n) s t := by
  rcases execParse_cases n s P with ⟨-, he⟩ | ⟨hn, he⟩
  · cases he.symm.trans h
    exact .raise (by decide)
  · cases he.symm.trans h
    exact .parse (rest := s.host) (fun _ => ⟨rfl, n, rfl⟩) (parseDatagram_result hn)

theorem execParseTmid_ending {n : Word} (h : execParseTmid n s P = .next t) : Ending P i s t := by
  obtain ⟨u, he, hu⟩ := execParseTmid_cases n s P
  cases he.symm.trans h
  rcases hu with rfl | rfl | rfl | rfl
  · exact .raise (by decide)
  · exact .raise (by decide)
  · exact .raise (by decide)
  · exact .answer _ _ _

theorem execSerialize_ending {cap : Word} (h : execSerialize cap s P = .next t) : Ending P (.serialize cap) s t := by
  rcases execSerialize_cases cap s P with ⟨-, he⟩ | ⟨x, hx, he⟩ | ⟨hcap, -, -, hlen, -, he⟩
  · cases he.symm.trans h
  · cases he.symm.trans h
    exact .raise (by rintro rfl; simp at hx)
  · cases he.symm.trans h
    exact .write (.inr ⟨cap, rfl⟩) (by omega)

theorem execOptGet_ending {k : Word} (h : execOptGet k s = .next t) : Ending P i s t := by
  rcases execOptGet_cases k s with ⟨-, he⟩ | ⟨_, he⟩
  · cases he.symm.trans h
    exact .raise (by decide)
  · cases he.symm.trans h
    exact .answer _ _ _

theorem execBufWr_ending {a : Word} {d : Bytes} (h : execBufWr a d s P = .next t) : Ending P (.bufWr a d) s t := by
  rw [execBufWr_eq a d s P] at h
  cases h
  split_ifs with hfit
  · exact .write (.inl ⟨a, d, rfl⟩) ((rangeFits_iff a d.length P).mp hfit).2
  · exact .raise (by decide)

theorem execBufRd_ending {a k : Word} (h : execBufRd a k s P = .next t) : Ending P i s t := by
  rw [execBufRd_eq a k s P] at h
  cases h
  split_ifs
  · exact .answer _ _ _
  · exact .raise (by decide)

theorem runAtHeader_ending {f : Nat → Except Status Message} (h : runAtHeader f s P = .next t)
    (hi : i.isCommand = false) (hf : ∀ n ≤ P.maxBuffer, ParseResult P (f n)) : Ending P i s t := by
  cases ha : s.atHeader P with
  | none => simp [runAtHeader, ha] at h
  | some p =>
    obtain ⟨n, u⟩ := p
    obtain ⟨w, rest, -, -, hw, rfl, rfl⟩ := atHeader_eq_some.mp ha
    cases (runAtHeader_of_some ha).symm.trans h
    exact .parse (by simp [hi]) (hf _ hw)

theorem runAtOption_ending {f : OptLoop → Except Status Message} (h : runAtOption f s P = .next t)
    (hi : i.isCommand = false) (hf : ∀ n ≤ P.maxBuffer, ∀ o : OptLoop, o.Fits n → ParseResult P (f o)) :
    Ending P i s t := by
  cases ha : s.atOption P with
  | none => simp [runAtOption, ha] at h
  | some p =>
    obtain ⟨o, u⟩ := p
    obtain ⟨w, k, rest, -, hw, hb, -, rfl⟩ := atOption_eq_some.mp ha
    cases (runAtOption_of_some ha).symm.trans h
    exact .parse (by simp [hi]) (hf _ hw o (beforeOption_fits hb))

/-- Everything an instruction can do, on a block of any sizes. -/
theorem execOf_ending (h : execOf P i s = .next t) : Ending P i s t := by
  cases i with
  | msgClear => exact setter_ending (ok := true) (m := .cleared) h fun _ => .clear
  | parse n => exact execParse_ending h
  | serialize cap => exact execSerialize_ending h
  | parseTmid n => exact execParseTmid_ending h
  | isEmpty => exact getter_ending h
  | setType v => exact setter_ending h fun _ => .setType v
  | getType => exact getter_ending h
  | setMid v => exact setter_ending h fun _ => .setMid v
  | getMid => exact getter_ending h
  | setToken d => exact setter_ending h fun hd => .setToken (of_decide_eq_true hd)
  | getToken => exact getter_ending h
  | getCodeClass => exact getter_ending h
  | getCodeDetail => exact getter_ending h
  | setCode k d => exact setter_ending h fun _ => .setCode k d
  | addOption x d =>
    refine setter_ending h fun hok => ?_
    simp only [Bool.and_eq_true, decide_eq_true_eq] at hok
    obtain ⟨⟨⟨hx, hd⟩, hcount⟩, hstore⟩ := hok
    exact .addOption hx hd hcount hstore
  | optCount => exact getter_ending h
  | optGet k => exact execOptGet_ending h
  | setPayload d => exact setter_ending h fun hd => .setPayload (of_decide_eq_true hd)
  | getPayload => exact getter_ending h
  | bufWr a d => exact execBufWr_ending h
  | bufRd a k => exact execBufRd_ending h
  | wireHeader ty k code mid =>
    exact runAtHeader_ending h rfl fun _ hn =>
      bind_optionsFrom_result hn (fun _ => headerElement_error_mem) (fun _ => headerElement_fits)
  | wirePayloadMarker => exact runAtOption_ending h rfl fun _ hn _ ho => markerElement_result hn ho
  | wireReservedDelta ln => exact runAtOption_ending h rfl fun _ _ _ _ => .error (by decide)
  | wireReservedLength dn => exact runAtOption_ending h rfl fun _ _ _ _ => .error (by decide)
  | wireOption dn ln =>
    exact runAtOption_ending h rfl fun _ hn _ ho =>
      bind_optionsFrom_result hn (fun _ => optionElement_error_mem) (fun _ => optionElement_fits ho)

theorem exec_ending (h : exec i s = .next t) : Ending Config.hardware i s t :=
  execOf_ending (by rwa [execOf_hardware])

/-- However an instruction ends, it completes with a response, zero results and no data where that is an error
(60_exceptions R235, R236). -/
theorem Ending.eq_complete (h : Ending P i s t) :
    ∃ u st r0 r1 d, t = State.complete u st r0 r1 d ∧ (st ≠ .ok → r0 = 0 ∧ r1 = 0 ∧ d = []) := by
  cases h with
  | raise hx => exact ⟨s, _, _, _, _, rfl, fun _ => ⟨rfl, rfl, rfl⟩⟩
  | answer r0 r1 d => exact ⟨s, .ok, r0, r1, d, rfl, fun hne => absurd rfl hne⟩
  | set hm => exact ⟨_, _, _, _, _, rfl, fun _ => ⟨rfl, rfl, rfl⟩⟩
  | write hi hd => exact ⟨_, .ok, _, _, _, rfl, fun hne => absurd rfl hne⟩
  | @parse r rest hi hr =>
    cases r <;> exact ⟨_, _, _, _, _, rfl, fun _ => ⟨rfl, rfl, rfl⟩⟩

/-- Only the two writers of the buffer change it (10_state R30). -/
theorem Ending.dbuf_eq (h : Ending P i s t) (hw : ∀ a d, i ≠ .bufWr a d) (hs : ∀ cap, i ≠ .serialize cap) :
    t.dbuf = s.dbuf := by
  cases h with
  | raise hx => rfl
  | answer r0 r1 d => rfl
  | set hm => rfl
  | write hi hd =>
    rcases hi with ⟨a, d, rfl⟩ | ⟨cap, rfl⟩
    · exact absurd rfl (hw a d)
    · exact absurd rfl (hs cap)
  | parse hi hr => exact State.endParse_dbuf _ _

/-- A command other than `PARSE` leaves the message as it is or sets it. -/
theorem Ending.msg_eq_or_sets (h : Ending P i s t) (hc : i.isCommand = true) (hp : ∀ n, i ≠ .parse n) :
    t.msg = s.msg ∨ Sets P s i t.msg := by
  cases h with
  | raise hx => exact .inl rfl
  | answer r0 r1 d => exact .inl rfl
  | set hm => exact .inr hm
  | write hi hd => exact .inl rfl
  | parse hi hr =>
    obtain ⟨-, n, rfl⟩ := hi hc
    exact absurd rfl (hp n)

end

/-! ### The invariant (10_state R33, R39) -/

section
variable {P : Config.Sizes} {s t : State}

theorem cleared_wf (P : Config.Sizes) : Message.cleared.wf P := by
  simp [Message.wf, Message.cleared, Message.storeUse, stableSort, gapsFit]

/-- A decoded message is well formed for the sizes of the block whose buffer held it: `N_OPT` and `VSTORE_SIZE` are
what the buffer can hold at most (00_scope R5, 40_parse R134). -/
theorem OptLoop.Fits.message_wf {n : Nat} {o : OptLoop} {pay : Bytes} (ho : o.Fits n) (hP : P.admissible)
    (hn : n ≤ P.maxBuffer) (hpay : pay.length ≤ n - (o.pos.cur + 1)) : (o.message pay).wf P := by
  obtain ⟨-, hopts, hstore, -, -⟩ := hP
  have hcur := ho.cur_le
  have hroom := ho.room
  refine ⟨ho.tkl_le, fun j hj => ?_, ?_, ho.val_le, ?_, gapsFit_stableSort.mpr ho.inReach⟩
  · exact tokenRegister_zero_above _ j (by rw [ho.tok_length]; exact hj)
  · show o.opts.length ≤ P.nOpt
    omega
  · show optBytes o.opts + pay.length ≤ P.vstoreSize
    rcases Nat.eq_zero_or_pos o.opts.length with h0 | hpos
    · rw [List.length_eq_zero_iff.mp h0, optBytes_nil]
      omega
    · omega

theorem Sets.keeps_wf {i : Instr} {m : Message} (h : Sets P s i m) (hP : P.admissible) (hs : s.msg.wf P) :
    m.wf P := by
  obtain ⟨-, -, -, -, hmax⟩ := hP
  obtain ⟨htkl, htok, hcount, hval, hstore, hgap⟩ := hs
  cases h with
  | clear => exact cleared_wf P
  | setType v => exact ⟨htkl, htok, hcount, hval, hstore, hgap⟩
  | setMid v => exact ⟨htkl, htok, hcount, hval, hstore, hgap⟩
  | setCode k d => exact ⟨htkl, htok, hcount, hval, hstore, hgap⟩
  | @setToken d hd =>
    have hd8 : d.length ≤ 8 := hd
    have hlen : (BitVec.ofNat 4 d.length).toNat = d.length := by
      rw [BitVec.toNat_ofNat]
      omega
    have hzero : ∀ j : Fin 8, (BitVec.ofNat 4 d.length).toNat ≤ j.val → (tokenRegister d)[j] = 0 := fun j hj =>
      tokenRegister_zero_above d j (hlen.symm.trans_le hj)
    exact ⟨hlen.trans_le hd8, hzero, hcount, hval, hstore, hgap⟩
  | @addOption x d hx hd hne hfit =>
    refine ⟨htkl, htok, ?_, ?_, ?_, ?_⟩
    · rw [List.length_append, List.length_singleton]
      omega
    · intro e he
      rcases List.mem_append.mp he with he | he
      · exact hval e he
      · exact List.mem_singleton.mp he ▸ hd
    · simp only [Message.storeUse, optBytes_append, optBytes_singleton] at hfit ⊢
      omega
    · have hnum : (optNumOfWord x).toNat ≤ Config.maxOptDelta := by
        rw [optNumOfWord_eq]
        exact hx.trans hmax
      exact gapsFit_stableSort.mpr ((gapsFit_stableSort.mp hgap).append (.inl hnum))
  | setPayload hfit => exact ⟨htkl, htok, hcount, hval, hfit, hgap⟩

theorem Status.code_mem_producedCodes {st : Status} (h : st ≠ .truncatedPayload) : st.code ∈ producedCodes := by
  cases st with
  | truncatedPayload => exact absurd rfl h
  | _ => decide

theorem truncatedPayload_notMem_parseErrors : Status.truncatedPayload ∉ parseErrors := by decide

/-- Completion latches the registers, so a good state after it needs only a good message and buffer. -/
theorem State.complete_good {st : Status} {r0 r1 : Word} {d : Bytes} (hmsg : s.msg.wf P) (hbuf : s.dbuf.wf P)
    (hst : st ≠ .truncatedPayload) : (s.complete st r0 r1 d).good P := by
  refine ⟨hmsg, hbuf, fun r hr => ?_, Status.code_mem_producedCodes hst⟩
  cases hr
  exact ⟨rfl, rfl, rfl⟩

theorem State.endParse_good {r : Except Status Message} (hr : ParseResult P r) (hP : P.admissible)
    (hbuf : s.dbuf.wf P) : (s.endParse r).good P := by
  cases hr with
  | error hx =>
    exact State.complete_good (cleared_wf P) hbuf fun h => truncatedPayload_notMem_parseErrors (h ▸ hx)
  | ok hn ho hpay => exact State.complete_good (ho.message_wf hP hn hpay) hbuf (by decide)

theorem Ending.keeps_good {i : Instr} (h : Ending P i s t) (hP : P.admissible) (hs : s.good P) : t.good P := by
  obtain ⟨hmsg, hbuf, -, -⟩ := hs
  cases h with
  | raise hx => exact State.complete_good hmsg hbuf hx
  | answer r0 r1 d => exact State.complete_good hmsg hbuf (by decide)
  | set hm => exact State.complete_good (hm.keeps_wf hP hmsg) hbuf (by decide)
  | write hi hd => exact State.complete_good hmsg (Memory.writeBytes_keeps_wf hbuf hd) (by decide)
  | parse hi hr => exact State.endParse_good hr hP hbuf

theorem State.afterReset_good (s : State) (P : Config.Sizes) : s.afterReset.good P := by
  refine ⟨cleared_wf P, ⟨List.Pairwise.nil, fun c hc => ?_⟩, fun r hr => ?_, ?_⟩
  · cases hc
  · cases hr
  · exact Status.code_mem_producedCodes (st := .ok) (by decide)

theorem stepOf_of_fetch_done (h : fetch s P = .done t) : stepOf P s = .next t := by
  simp [stepOf, h]

theorem stepOf_of_fetch_run {i : Instr} (h : fetch s P = .run i t) : stepOf P s = execOf P i t := by
  simp [stepOf, h]

/-- What the host has still to issue is no part of a good state, so the fetch may take an event off it. -/
theorem stepOf_keeps_good (hP : P.admissible) (hs : s.good P) (h : stepOf P s = .next t) : t.good P := by
  rcases fetch_cases s P with ⟨-, hf⟩ | ⟨rest, -, hf⟩ | ⟨c, rest, -, -, hf⟩ | ⟨c, i, rest, -, -, hf⟩ |
    ⟨n, k, rest, i, -, -, hf⟩ | ⟨n, k, rest, -, -, hf⟩
  · cases (stepOf_of_fetch_done hf).symm.trans h
    exact hs
  · cases (stepOf_of_fetch_done hf).symm.trans h
    exact State.afterReset_good _ P
  · cases (stepOf_of_fetch_done hf).symm.trans h
    obtain ⟨hmsg, hbuf, -, -⟩ := hs
    exact State.complete_good hmsg hbuf (by decide)
  · exact (execOf_ending ((stepOf_of_fetch_run hf).symm.trans h)).keeps_good hP hs
  · exact (execOf_ending ((stepOf_of_fetch_run hf).symm.trans h)).keeps_good hP hs
  · exact (execOf_ending ((stepOf_of_fetch_run hf).symm.trans h)).keeps_good hP hs

end

/-- Settles O55: every way an instruction can end (`Ending`) keeps a good state good, and a step is an instruction's
end, a reset or nothing. -/
theorem stepKeepsGood : Obligations.StepKeepsGood := by
  refine ⟨fun s t hs h => ?_, fun P hP s t => stepOf_keeps_good hP⟩
  exact stepOf_keeps_good hardware_admissible hs (by rwa [stepOf_hardware])

/-! ### Rules of the whole machine -/

/-- Settles O57: of the ways an instruction can end, only the write of a byte range touches the buffer. -/
theorem onlyBufWrAndSerializeWriteTheBuffer : Obligations.OnlyBufWrAndSerializeWriteTheBuffer := by
  intro i s t h hw hs
  have hbuf := (exec_ending h).dbuf_eq hw hs
  exact ⟨hbuf, fun a => by rw [hbuf]⟩

/-- Settles O58: a command that changes the message is a setter, and each setter names the one field it writes. -/
theorem messageFieldsHaveTheirWriters : Obligations.MessageFieldsHaveTheirWriters := by
  intro i s t hc h hclear hparse
  rcases (exec_ending h).msg_eq_or_sets hc hparse with heq | hset
  · simp [heq]
  · generalize t.msg = m at hset ⊢
    cases hset with
    | clear => exact absurd rfl hclear
    | setType v => simp
    | setMid v => simp
    | setToken hd => simp
    | setCode k d => simp
    | addOption hx hd hcount hstore => simp
    | setPayload hstore => simp

/-- Settles O60: every instruction ends in a completion, which latches what it presents. -/
theorem everyCommandLatchesItsResponse : Obligations.EveryCommandLatchesItsResponse := by
  intro i s t h
  obtain ⟨u, st, r0, r1, d, rfl, hzero⟩ := (exec_ending h).eq_complete
  refine ⟨_, rfl, rfl, rfl, rfl, fun hne => hzero ?_⟩
  rintro rfl
  exact hne rfl

theorem cleared_isCleared : IsCleared Message.cleared :=
  ⟨rfl, rfl, fun j => by simp [Message.cleared], rfl, rfl, rfl, rfl⟩

/-- Settles O11, field by field of R37's table. -/
theorem resetStateIsAsTheSpecSays : Obligations.ResetStateIsAsTheSpecSays :=
  ⟨Message.ver_eq _, cleared_isCleared, rfl, rfl, rfl, rfl, fun _ => rfl⟩

end Sys2Proof.Machine
end

section
/-! SUPPORT. What a parse reads (20_memory R56, R57, 40_parse R120): on two buffers that read the same below `n`, every
function of the parse whose limit is at most `n` gives the same; from it, `PARSE n` depends on the first `n` bytes. -/

namespace Sys2Proof.Machine

section
variable {m m' : Memory} {n : Nat} (hm : ∀ a < n, m.read a = m'.read a)
include hm

/-! ### The cursor primitives -/

theorem Memory.readBytes_congr {a k : Nat} (h : a + k ≤ n) : m.readBytes a k = m'.readBytes a k := by
  refine List.ext_getElem (by simp) fun j hj hj' => ?_
  rw [Memory.readBytes_length] at hj
  rw [Memory.readBytes_getElem, Memory.readBytes_getElem]
  exact hm _ (by omega)

theorem rd_congr {c : Cursor} (hc : c.lim ≤ n) (k : Nat) : rd m c k = rd m' c k := by
  unfold rd Memory.readInt
  split_ifs
  · rfl
  · rw [Memory.readBytes_congr hm (by omega)]

theorem rdBytes_congr {c : Cursor} (hc : c.lim ≤ n) (k : Nat) : rdBytes m c k = rdBytes m' c k := by
  unfold rdBytes
  split_ifs
  · rfl
  · rw [Memory.readBytes_congr hm (by omega)]

theorem readExt_congr {c : Cursor} (hc : c.lim ≤ n) (x : Nibble) : readExt m c x = readExt m' c x := by
  rw [readExt, readExt, rd_congr hm hc]

/-! ### The elements -/

theorem headerElement_congr (t : MsgType) (k : Nibble) (code : Byte) (mid : MsgId) :
    headerElement t k code mid m n = headerElement t k code mid m' n := by
  rw [headerElement, headerElement, rdBytes_congr hm (Nat.le_refl n)]

theorem readHeader_congr : readHeader m n = readHeader m' n := by
  unfold readHeader
  by_cases h4 : n < 4
  · rw [if_pos h4, if_pos h4]
  · rw [headerElement_congr hm, hm 0 (by omega), hm 1 (by omega), hm 2 (by omega), hm 3 (by omega)]

/-- The extensions and the value are read through one cursor, whose limit stays that of the parse. -/
theorem optionElement_congr {o : OptLoop} (ho : o.pos.lim ≤ n) (dn ln : Nibble) :
    optionElement dn ln m o = optionElement dn ln m' o := by
  rw [optionElement, optionElement, readExt_congr hm (c := { o.pos with cur := o.pos.cur + 1 }) ho]
  cases h1 : readExt m' { o.pos with cur := o.pos.cur + 1 } dn with
  | none => rfl
  | some p1 =>
    obtain ⟨delta, c1⟩ := p1
    have hc1 : c1.lim ≤ n := by
      obtain ⟨-, -, rfl⟩ := readExt_eq_some.mp h1
      exact ho
    simp only [readExt_congr hm hc1]
    cases h2 : readExt m' c1 ln with
    | none => rfl
    | some p2 =>
      obtain ⟨length, c2⟩ := p2
      have hc2 : c2.lim ≤ n := by
        obtain ⟨-, -, rfl⟩ := readExt_eq_some.mp h2
        exact hc1
      simp only [rdBytes_congr hm hc2]

theorem markerElement_congr {o : OptLoop} (hc : o.pos.cur < o.pos.lim) (ho : o.pos.lim ≤ n) :
    markerElement m o = markerElement m' o := by
  rw [markerElement, markerElement, Memory.readBytes_congr hm (by omega)]

/-! ### The loop over the elements -/

theorem optionTurn_congr {o : OptLoop} (hc : o.pos.cur < o.pos.lim) (ho : o.pos.lim ≤ n) :
    optionTurn m o = optionTurn m' o := by
  rw [optionTurn, optionTurn, hm _ (by omega), markerElement_congr hm hc ho, optionElement_congr hm ho]

theorem optionLoop_congr (k : Nat) {o : OptLoop} (ho : o.pos.lim ≤ n) : optionLoop m k o = optionLoop m' k o := by
  induction k generalizing o with
  | zero => rfl
  | succ k ih =>
    by_cases hc : o.pos.cur < o.pos.lim
    · simp only [optionLoop, if_pos hc, optionTurn_congr hm hc ho]
      cases ht : optionTurn m' o with
      | error x => rfl
      | ok r =>
        cases r with
        | done msg => rfl
        | more o' =>
          obtain ⟨-, -, hlim⟩ := optionTurn_advances ht
          exact ih (hlim.trans_le ho)
    · simp only [optionLoop, if_neg hc]

theorem parseDatagram_congr : parseDatagram m n = parseDatagram m' n := by
  rw [parseDatagram, parseDatagram, readHeader_congr hm]
  cases hr : readHeader m' n with
  | error x => rfl
  | ok o => exact optionLoop_congr hm _ (readHeader_fits hr).lim_eq.le

end

/-- What a parse came to decides the message and the response it leaves, whatever the state before. -/
theorem State.endParse_msg_response (s s' : State) (r : Except Status Message) :
    (s.endParse r).msg = (s'.endParse r).msg ∧ (s.endParse r).response = (s'.endParse r).response := by
  cases r <;> exact ⟨rfl, rfl⟩

theorem exec_parse_of_le {w : Word} (hw : w.toNat ≤ 1024) (s : State) :
    exec (.parse w) s = .next (s.endParse (parseDatagram s.dbuf w.toNat)) := by
  rcases execParse_cases w s with ⟨hgt, -⟩ | ⟨-, he⟩
  · exact absurd hw (Nat.not_le_of_lt hgt)
  · exact he

/-- Settles O41: every read of a parse is below its limit `n`, so the two parses come to the same, which alone decides
message and response. -/
theorem parseReadsOnlyTheDatagram : Obligations.ParseReadsOnlyTheDatagram := by
  intro w s s' hw hm
  refine ⟨_, _, exec_parse_of_le hw s, exec_parse_of_le hw s', ?_⟩
  rw [parseDatagram_congr hm]
  exact State.endParse_msg_response s s' _

end Sys2Proof.Machine
end

section
/-! SUPPORT. The wire encoding of numbers: big-endian images and their integers are inverse to each other (20_memory
R51, R53, R54), and so are values and nibble-and-extension pairs (30_encoding R90, R91); and the end of a command whose
opcode is not in the table (R101). -/

namespace Sys2Proof.Machine

/-! ### Big-endian images and integers are inverse (R51, R53, R54) -/

/-- The image of `v` split at its last byte, where `beBytes` itself splits at the first and `beNat` folds to the last. -/
theorem beBytes_succ_last (n v : Nat) : beBytes (n + 1) v = beBytes n (v / 256) ++ [BitVec.ofNat 8 v] := by
  induction n with
  | zero => simp [beBytes]
  | succ n ih =>
    have hfirst : v / 256 ^ (n + 1) = v / 256 / 256 ^ n := by rw [pow_succ', Nat.div_div_eq_div_mul]
    rw [beBytes, ih, hfirst]
    rfl

theorem beNat_beBytes (n v : Nat) : beNat (beBytes n v) = v % 256 ^ n := by
  induction n generalizing v with
  | zero => simp [beBytes, beNat, Nat.mod_one]
  | succ n ih =>
    rw [beBytes_succ_last, beNat_append_singleton, ih, BitVec.toNat_ofNat, pow_succ' 256 n, Nat.mod_mul]
    omega

theorem beBytes_beNat (bs : Bytes) : beBytes bs.length (beNat bs) = bs := by
  induction bs using List.reverseRecOn with
  | nil => rfl
  | append_singleton bs b ih =>
    have hrest : (beNat bs * 256 + b.toNat) / 256 = beNat bs := by
      have := b.isLt
      omega
    have hlast : BitVec.ofNat 8 (beNat bs * 256 + b.toNat) = b := by
      apply BitVec.eq_of_toNat_eq
      have := b.isLt
      rw [BitVec.toNat_ofNat]
      omega
    rw [List.length_append, List.length_singleton, beNat_append_singleton, beBytes_succ_last, hrest, hlast, ih]

/-! ### Values and nibble-and-extension pairs are inverse (R90, R91) -/

theorem nib_ext_of_le_12 {v : Nat} (h : v ≤ 12) : nib v = BitVec.ofNat 4 v ∧ ext v = [] :=
  ⟨if_pos h, if_pos h⟩

theorem nib_ext_add_13 {e : Nat} (h : e < 256) : nib (e + 13) = 13 ∧ ext (e + 13) = beBytes 1 e := by
  have h12 : ¬ e + 13 ≤ 12 := by omega
  have h268 : e + 13 ≤ 268 := by omega
  rw [nib, ext, if_neg h12, if_neg h12, if_pos h268, if_pos h268, Nat.add_sub_cancel]
  exact ⟨rfl, rfl⟩

theorem nib_ext_add_269 (e : Nat) : nib (e + 269) = 14 ∧ ext (e + 269) = beBytes 2 e := by
  have h12 : ¬ e + 269 ≤ 12 := by omega
  have h268 : ¬ e + 269 ≤ 268 := by omega
  rw [nib, ext, if_neg h12, if_neg h12, if_neg h268, if_neg h268, Nat.add_sub_cancel]
  exact ⟨rfl, rfl⟩

/-- The three ranges of the values one option header can carry, by the extension each needs (R90). -/
theorem value_ranges {v : Nat} (hv : v ≤ 65804) :
    v ≤ 12 ∨ (∃ e < 256, v = e + 13) ∨ ∃ e < 65536, v = e + 269 := by
  by_cases h12 : v ≤ 12
  · exact .inl h12
  · by_cases h268 : v ≤ 268
    · exact .inr (.inl ⟨v - 13, by omega, by omega⟩)
    · exact .inr (.inr ⟨v - 269, by omega, by omega⟩)

/-- The three kinds of nibble but the reserved 15, and what each decodes to (R90). -/
theorem extLen_extVal_cases {x : Nibble} (hx : x ≠ 15) :
    (x.toNat ≤ 12 ∧ extLen x = 0 ∧ ∀ e, extVal x e = x.toNat) ∨
    (x = 13 ∧ extLen x = 1 ∧ ∀ e, extVal x e = e + 13) ∨
    (x = 14 ∧ extLen x = 2 ∧ ∀ e, extVal x e = e + 269) := by
  by_cases h12 : x.toNat ≤ 12
  · exact .inl ⟨h12, if_pos h12, fun _ => if_pos h12⟩
  · have hlast : x = 13 ∨ x = 14 := by bv_omega
    rcases hlast with rfl | rfl
    · exact .inr (.inl ⟨rfl, rfl, fun _ => rfl⟩)
    · exact .inr (.inr ⟨rfl, rfl, fun _ => rfl⟩)

/-- Decoding inverts encoding: on a value one option header can carry, the pair is a legal one and gives it back. -/
theorem extVal_nib_ext {v : Nat} (hv : v ≤ 65804) :
    nib v ≠ 15 ∧ (ext v).length = extLen (nib v) ∧ extVal (nib v) (beNat (ext v)) = v := by
  rcases value_ranges hv with h12 | ⟨e, he, rfl⟩ | ⟨e, he, rfl⟩
  · obtain ⟨hn, hx⟩ := nib_ext_of_le_12 h12
    have hval : (nib v).toNat = v := by
      rw [hn, BitVec.toNat_ofNat]
      omega
    have hle : (nib v).toNat ≤ 12 := hval.trans_le h12
    refine ⟨fun h => absurd (h ▸ hle) (by decide), ?_, ?_⟩
    · rw [hx, extLen, if_pos hle, List.length_nil]
    · rw [extVal, if_pos hle, hval]
  · obtain ⟨hn, hx⟩ := nib_ext_add_13 he
    have hval : beNat (beBytes 1 e) = e := (beNat_beBytes 1 e).trans (Nat.mod_eq_of_lt he)
    rw [hn, hx, hval]
    exact ⟨by decide, beBytes_length 1 e, rfl⟩
  · obtain ⟨hn, hx⟩ := nib_ext_add_269 e
    have hval : beNat (beBytes 2 e) = e := (beNat_beBytes 2 e).trans (Nat.mod_eq_of_lt he)
    rw [hn, hx, hval]
    exact ⟨by decide, beBytes_length 2 e, rfl⟩

/-- Encoding inverts decoding: a legal pair is the one its value is encoded to. -/
theorem nib_ext_extVal {x : Nibble} {e : Bytes} (hx : x ≠ 15) (he : e.length = extLen x) :
    nib (extVal x (beNat e)) = x ∧ ext (extVal x (beNat e)) = e := by
  have hlt := beNat_lt e
  have himage := beBytes_beNat e
  rcases extLen_extVal_cases hx with ⟨h12, hl, hv⟩ | ⟨rfl, hl, hv⟩ | ⟨rfl, hl, hv⟩
  · obtain ⟨hn, hext⟩ := nib_ext_of_le_12 h12
    rw [hv, hn, hext, List.length_eq_zero_iff.mp (he.trans hl)]
    exact ⟨(BitVec.ofNat_toNat 4 x).trans (BitVec.setWidth_eq x), rfl⟩
  · rw [he, hl] at hlt himage
    obtain ⟨hn, hext⟩ := nib_ext_add_13 hlt
    rw [hv, hn, hext, himage]
    exact ⟨rfl, rfl⟩
  · rw [he, hl] at himage
    obtain ⟨hn, hext⟩ := nib_ext_add_269 (beNat e)
    rw [hv, hn, hext, himage]
    exact ⟨rfl, rfl⟩

/-- Settles O5: on values up to 65804 and legal pairs, encoding and decoding are inverse to each other. -/
theorem extensionsAreUnique : Obligations.ExtensionsAreUnique :=
  ⟨fun _ => extVal_nib_ext, fun _ e hx he =>
    ⟨extVal_le hx (he ▸ beNat_lt e), nib_ext_extVal hx he⟩⟩

/-! ### Opcodes outside the table (R101) -/

theorem decodeCommand_of_illegal_opcode {c : Command}
    (h : c.op.toNat = 0x00 ∨ (0x05 ≤ c.op.toNat ∧ c.op.toNat ≤ 0x0F) ∨ c.op.toNat = 0x1F ∨ 0x22 ≤ c.op.toNat) :
    decodeCommand c = .error .badCommand := by
  unfold decodeCommand
  split
  case h_22 => rfl
  all_goals omega

theorem step_of_undecodable_command {s : State} {c : Command} {rest : List HostEvent} {r : Reject}
    (hs : s.host = .command c :: rest) (hd : decodeCommand c = .error r) :
    step s = .next ({ s with host := rest }.raise .badCommand) :=
  step_of_fetch_done (by simp [fetch, hs, hd])

/-- Settles O9: no row of the table decodes such an opcode, and the step completes with an error, which changes nothing
else. -/
theorem illegalOpcodesEndInBadCommand : Obligations.IllegalOpcodesEndInBadCommand := by
  intro s c rest hs hop
  exact ⟨_, step_of_undecodable_command hs (decodeCommand_of_illegal_opcode hop), ⟨rfl, rfl, rfl, rfl⟩, rfl,
    ⟨rfl, fun _ => rfl⟩, rfl⟩

/-! ### A first option with an empty value (R104) -/

/-- With no option before it and no value, an option's bytes are its header byte and the extension of its number. -/
theorem optionsImage_first_empty (x : OptNum) :
    optionsImage 0 [⟨x, []⟩] = optionByte (nib x.toNat) 0 :: ext x.toNat := by
  have hvalue : nib 0 = 0 ∧ ext 0 = [] := by decide
  simp [optionsImage, optionImage, hvalue]

/-- Settles O6, row by row of R104's table. -/
theorem firstOptionDeltaTable : Obligations.FirstOptionDeltaTable := by
  simp only [Obligations.FirstOptionDeltaTable, optionsImage_first_empty]
  decide

end Sys2Proof.Machine
end

section
/-! SUPPORT. How `PARSE` ends, as an instruction: by what the parse of the datagram came to (40_parse R121, R129), the
errors of its header in their order (R122, R123), and the same end whichever wire element it is taken up at (R130). -/

namespace Sys2Proof.Machine

/-! ### From the parse of the datagram to the end of the command -/

theorem exec_parse_of_gt {w : Word} (hw : 1024 < w.toNat) (s : State) :
    exec (.parse w) s = .next (s.raise .invalidArgument) := by
  rcases execParse_cases w s with ⟨-, he⟩ | ⟨hle, -⟩
  · exact he
  · exact absurd hle (Nat.not_le_of_lt hw)

theorem exec_parse_endsCleared {w : Word} {s : State} {x : Status} (hw : w.toNat ≤ 1024)
    (h : parseDatagram s.dbuf w.toNat = .error x) : EndsCleared (.parse w) s x.code := by
  refine ⟨s.parseError x, ?_, ⟨rfl, rfl, rfl, rfl⟩, cleared_isCleared, ⟨rfl, fun _ => rfl⟩, rfl⟩
  rw [exec_parse_of_le hw, h, State.endParse_error]

theorem exec_parse_delivers {w : Word} {s : State} {m : Message} (hw : w.toNat ≤ 1024)
    (h : parseDatagram s.dbuf w.toNat = .ok m) : Delivers (.parse w) s m := by
  refine ⟨s.parseOk m, ?_, ⟨rfl, rfl, rfl, rfl⟩, rfl, ⟨rfl, fun _ => rfl⟩, rfl⟩
  rw [exec_parse_of_le hw, h, State.endParse_ok]

theorem parseDatagram_error_mem {m : Memory} {n : Nat} {x : Status} (h : parseDatagram m n = .error x) :
    x ∈ parseErrors := by
  have hr := parseDatagram_result (P := { Config.hardware with maxBuffer := n }) (m := m) (Nat.le_refl n)
  rw [h] at hr
  cases hr with
  | error hx => exact hx

/-- `STATUS` after a `PARSE`, on a block of any sizes, says what the parse came to. -/
theorem execParse_eq_next {P : Config.Sizes} {w : Word} {s u : State} (h : execParse w s P = .next u) :
    (u = s.raise .invalidArgument) ∨
    (w.toNat ≤ P.maxBuffer ∧ ∃ x ∈ parseErrors, u = s.parseError x) ∨
    (w.toNat ≤ P.maxBuffer ∧ ∃ m, parseDatagram s.dbuf w.toNat = .ok m ∧ u = s.parseOk m) := by
  rcases execParse_cases w s P with ⟨-, he⟩ | ⟨hle, he⟩
  · cases he.symm.trans h
    exact .inl rfl
  · cases he.symm.trans h
    cases hr : parseDatagram s.dbuf w.toNat with
    | error x => exact .inr (.inl ⟨hle, x, parseDatagram_error_mem hr, rfl⟩)
    | ok m => exact .inr (.inr ⟨hle, m, rfl, rfl⟩)

theorem code_of_mem_parseErrors {x : Status} (h : x ∈ parseErrors) :
    x.code ∈ ([0x01, 0x02, 0x03, 0x04, 0x05, 0x07, 0x08, 0x09] : List Byte) := by
  simp only [parseErrors, List.mem_cons, List.not_mem_nil, or_false] at h
  rcases h with rfl | rfl | rfl | rfl | rfl | rfl | rfl | rfl <;> decide

theorem code_ne_zero_of_mem_parseErrors {x : Status} (h : x ∈ parseErrors) : x.code ≠ 0x00 := fun h0 =>
  absurd (h0 ▸ code_of_mem_parseErrors h) (by decide)

/-- A `PARSE` that ends with `OK` decoded its datagram, which the buffer can hold. -/
theorem execParse_eq_ok {P : Config.Sizes} {w : Word} {s u : State} (h : execParse w s P = .next u)
    (hu : u.status = 0x00) :
    w.toNat ≤ P.maxBuffer ∧ parseDatagram s.dbuf w.toNat = .ok u.msg ∧ u = s.parseOk u.msg := by
  rcases execParse_eq_next h with rfl | ⟨-, x, hx, rfl⟩ | ⟨hle, m, hm, rfl⟩
  · cases hu
  · exact absurd hu (code_ne_zero_of_mem_parseErrors hx)
  · exact ⟨hle, hm, rfl⟩

/-- Settles O33: of the three ends of `PARSE` only that of a parse error has such a status. -/
theorem parseErrorClearsMessage : Obligations.ParseErrorClearsMessage := by
  intro n s u h h0 h20
  rcases execParse_eq_next h with rfl | ⟨-, x, hx, rfl⟩ | ⟨-, m, -, rfl⟩
  · exact absurd rfl h20
  · exact ⟨code_of_mem_parseErrors hx, ⟨rfl, rfl, rfl, rfl⟩, cleared_isCleared, rfl, fun _ => rfl⟩
  · exact absurd rfl h0

/-! ### The errors of the header and the token (R122, R123) -/

theorem headerVer_eq_one_iff (b : Byte) : headerVer b = 1 ↔ b.toNat / 64 = 1 := by
  revert b; decide

theorem headerTkl_toNat (b : Byte) : (headerTkl b).toNat = b.toNat % 16 := by
  revert b; decide

theorem readHeader_of_short {m : Memory} {n : Nat} (h : n < 4) : readHeader m n = .error .shortHeader := if_pos h

theorem readHeader_of_version {m : Memory} {n : Nat} (h : 4 ≤ n) (hv : headerVer (m.read 0) ≠ 1) :
    readHeader m n = .error .badVersion := by
  rw [readHeader, if_neg (Nat.not_lt.mpr h), Config.version, if_pos hv]

theorem readHeader_of_header {m : Memory} {n : Nat} (h : 4 ≤ n) (hv : headerVer (m.read 0) = 1) :
    readHeader m n =
      headerElement (headerType (m.read 0)) (headerTkl (m.read 0)) (m.read 1) (midOf (m.read 2) (m.read 3)) m n := by
  rw [readHeader, if_neg (Nat.not_lt.mpr h), Config.version, if_neg (not_not_intro hv)]

theorem parseDatagram_of_readHeader_error {m : Memory} {n : Nat} {x : Status} (h : readHeader m n = .error x) :
    parseDatagram m n = .error x := by
  rw [parseDatagram, h]
  rfl

theorem parseDatagram_of_readHeader_ok {m : Memory} {n : Nat} {o : OptLoop} (h : readHeader m n = .ok o) :
    parseDatagram m n = optionsFrom m o := by
  rw [parseDatagram, h]
  rfl

/-- Settles O32: each error is that of the header, which a parse reads first, or of the token right behind it. -/
theorem parseHeaderErrors : Obligations.ParseHeaderErrors := by
  intro n s hn
  have ends {x : Status} (h : readHeader s.dbuf n.toNat = .error x) : EndsCleared (.parse n) s x.code :=
    exec_parse_endsCleared hn (parseDatagram_of_readHeader_error h)
  simp only [ne_eq, ← headerVer_eq_one_iff, ← headerTkl_toNat]
  refine ⟨fun h4 => ends (readHeader_of_short h4), fun h4 hv => ends (readHeader_of_version h4 hv),
    fun h4 hv hk => ends (x := .badTokenLength) ?_,
    fun h4 hv hk hlt => ends (x := .truncatedToken) ?_⟩
  · exact (readHeader_of_header h4 hv).trans (headerElement_eq_error.mpr (.inl ⟨hk, rfl⟩))
  · exact (readHeader_of_header h4 hv).trans (headerElement_eq_error.mpr (.inr ⟨hk, hlt, rfl⟩))

/-- Settles O31: the operand check is the first test, no other end of `PARSE` has its status, and an empty datagram is
shorter than a header. -/
theorem parseOperandCheck : Obligations.ParseOperandCheck := by
  intro n s
  refine ⟨fun h => ?_, fun h => ⟨_, exec_parse_of_le h s, ?_⟩, fun h => ?_⟩
  · exact ⟨_, exec_parse_of_gt h s, ⟨rfl, rfl, rfl, rfl⟩, rfl, ⟨rfl, fun _ => rfl⟩, rfl⟩
  · cases hr : parseDatagram s.dbuf n.toNat with
    | error x =>
      intro (h20 : x.code = 0x20)
      exact absurd (h20 ▸ code_of_mem_parseErrors (parseDatagram_error_mem hr)) (by decide)
    | ok m =>
      show (0x00 : Byte) ≠ 0x20
      decide
  · obtain ⟨hshort, -⟩ := parseHeaderErrors n s (by omega)
    exact hshort (by omega)

/-! ### The reserved status (R137) -/

theorem Ending.status_mem_producedCodes {P : Config.Sizes} {i : Instr} {s t : State} (h : Ending P i s t) :
    t.status ∈ producedCodes := by
  have hok : Status.ok ≠ .truncatedPayload := by decide
  cases h with
  | raise hx => exact Status.code_mem_producedCodes hx
  | answer r0 r1 d => exact Status.code_mem_producedCodes hok
  | set hm => exact Status.code_mem_producedCodes hok
  | write hi hd => exact Status.code_mem_producedCodes hok
  | parse hi hr =>
    cases hr with
    | error hx =>
      exact Status.code_mem_producedCodes fun h => truncatedPayload_notMem_parseErrors (h ▸ hx)
    | ok hn ho hpay => exact Status.code_mem_producedCodes hok

/-- Settles O40: the reserved code is not among those an instruction can end with. -/
theorem truncatedPayloadIsNeverRaised : Obligations.TruncatedPayloadIsNeverRaised := by
  intro i s u h h6
  exact absurd (h6 ▸ (exec_ending h).status_mem_producedCodes) (by decide)

/-! ### `PARSE` taken up at one of its elements (R130) -/

/-- The row of a header, run at a header of version 1 that stands in the buffer, ends as the whole parse. -/
theorem exec_of_decodeHeader {s t : State} {n : Nat} {i : Instr} (h : s.atHeader = some (n, t)) (h4 : 4 ≤ n)
    (hi : decodeHeader (s.dbuf.read 0) (s.dbuf.read 1) (s.dbuf.read 2) (s.dbuf.read 3) = .ok i) :
    exec i s = .next (t.endParse (parseDatagram s.dbuf n)) := by
  unfold decodeHeader at hi
  split_ifs at hi with hv
  cases hi
  rw [parseDatagram, readHeader_of_header h4 hv]
  exact runAtHeader_of_some h

/-- The row of the byte at an option position, run there, ends as the rest of the parse. -/
theorem exec_of_decodeOptionByte {s t : State} {o : OptLoop} (h : s.atOption = some (o, t)) :
    exec (decodeOptionByte (s.dbuf.read o.pos.cur)) s = .next (t.endParse (optionsFrom s.dbuf o)) := by
  obtain ⟨-, -, -, -, -, -, hc, -⟩ := atOption_eq_some.mp h
  rw [optionsFrom_eq, if_pos hc, optionTurn_of_decode, decodeOptionByte]
  split_ifs with hmarker hdelta hlength
  · refine (runAtOption_of_some h).trans ?_
    cases markerElement s.dbuf o <;> rfl
  · exact runAtOption_of_some h
  · exact runAtOption_of_some h
  · refine (runAtOption_of_some h).trans ?_
    cases optionElement (highNibble (s.dbuf.read o.pos.cur)) (lowNibble (s.dbuf.read o.pos.cur)) s.dbuf o <;> rfl

/-- Whatever row a `PARSE` taken up at an element is fetched as, it ends as `PARSE`. -/
theorem exec_of_elementRow {s : State} {n : Word} {k : Nat} {rest : List HostEvent} {i : Instr}
    (hs : s.host = .element n k :: rest) (hi : s.elementRow = some i) :
    exec i s = exec (.parse n) { s with host := rest } := by
  unfold State.elementRow at hi
  cases hh : s.atHeader with
  | some p =>
    obtain ⟨l, t⟩ := p
    simp only [hh] at hi
    obtain ⟨w, rest', hs', h4, hle, rfl, rfl⟩ := atHeader_eq_some.mp hh
    cases hs.symm.trans hs'
    cases hd : decodeHeader (s.dbuf.read 0) (s.dbuf.read 1) (s.dbuf.read 2) (s.dbuf.read 3) with
    | error x => simp [hd, Except.toOption] at hi
    | ok j =>
      obtain rfl : j = i := by simpa [hd, Except.toOption] using hi
      rw [exec_of_decodeHeader hh h4 hd]
      exact (exec_parse_of_le hle _).symm
  | none =>
    cases ho : s.atOption with
    | none => simp [hh, ho] at hi
    | some p =>
      obtain ⟨o, t⟩ := p
      obtain rfl : decodeOptionByte (s.dbuf.read o.pos.cur) = i := by simpa [hh, ho] using hi
      obtain ⟨w, j, rest', hs', hle, hb, -, rfl⟩ := atOption_eq_some.mp ho
      cases hs.symm.trans hs'
      rw [exec_of_decodeOptionByte ho, ← parseDatagram_of_beforeOption hb]
      exact (exec_parse_of_le hle _).symm

/-- Settles O44: the event is fetched as `PARSE` itself, or as the row that stands at its element, which ends
the same. -/
theorem parseIsTheRunOfItsElements : Obligations.ParseIsTheRunOfItsElements := by
  intro n k s rest hs
  cases hr : s.elementRow with
  | none => exact step_of_fetch_run (by simp [fetch, hs, hr])
  | some i =>
    have hstep : step s = exec i s := step_of_fetch_run (by simp [fetch, hs, hr])
    exact hstep.trans (exec_of_elementRow hs hr)

end Sys2Proof.Machine
end

section
/-! SUPPORT. Decoding an image (40_parse R122 to R128 over 41_serialize R157): on a buffer that shows the image of a
message, cut off anywhere, the header, every option and the payload are read back as they were written. -/

namespace Sys2Proof.Machine

/-! ### What the buffer shows below a limit -/

/-- From `a` on the buffer shows the bytes `bs`, as far as they lie below `lim`. -/
def Memory.Shows (m : Memory) (lim a : Nat) (bs : Bytes) : Prop :=
  ∀ j (h : j < bs.length), a + j < lim → m.read (a + j) = bs[j]

section
variable {m : Memory} {lim a : Nat}

theorem Memory.shows_append {xs ys : Bytes} :
    m.Shows lim a (xs ++ ys) ↔ m.Shows lim a xs ∧ m.Shows lim (a + xs.length) ys := by
  constructor
  · intro h
    refine ⟨fun j hj hlt => ?_, fun j hj hlt => ?_⟩
    · rw [h j (by rw [List.length_append]; omega) hlt, List.getElem_append_left hj]
    · rw [Nat.add_assoc] at hlt ⊢
      rw [h (xs.length + j) (by rw [List.length_append]; omega) hlt, List.getElem_append_right (Nat.le_add_right _ _)]
      simp only [Nat.add_sub_cancel_left]
  · rintro ⟨hx, hy⟩ j hj hlt
    by_cases hc : j < xs.length
    · rw [hx j hc hlt, List.getElem_append_left hc]
    · rw [List.length_append] at hj
      have hyj := hy (j - xs.length) (by omega) (by omega)
      rw [List.getElem_append_right (Nat.le_of_not_lt hc), ← hyj]
      congr 1
      omega

theorem Memory.shows_cons {b : Byte} {bs : Bytes} :
    m.Shows lim a (b :: bs) ↔ (a < lim → m.read a = b) ∧ m.Shows lim (a + 1) bs := by
  have hone : m.Shows lim a [b] ↔ (a < lim → m.read a = b) := by simp [Memory.Shows]
  rw [← List.singleton_append, Memory.shows_append, hone, List.length_singleton]

/-- Below the limit what is shown is what is read. -/
theorem Memory.Shows.readBytes {bs : Bytes} (h : m.Shows lim a bs) (hle : a + bs.length ≤ lim) :
    m.readBytes a bs.length = bs := by
  refine List.ext_getElem (Memory.readBytes_length _ _ _) fun j h1 h2 => ?_
  rw [Memory.readBytes_getElem, h j h2 (by omega)]

theorem Memory.Shows.readBytes_take {bs : Bytes} (h : m.Shows lim a bs) (ha : a ≤ lim) (hle : lim ≤ a + bs.length) :
    m.readBytes a (lim - a) = bs.take (lim - a) := by
  refine List.ext_getElem (by simp; omega) fun j h1 h2 => ?_
  rw [Memory.readBytes_length] at h1
  rw [Memory.readBytes_getElem, List.getElem_take, h j _ (by omega)]

theorem Memory.shows_of_readBytes {bs : Bytes} (h : m.readBytes 0 lim = bs.take lim) : m.Shows lim 0 bs := by
  intro j hj hlt
  have hj' : j < (m.readBytes 0 lim).length := by rw [Memory.readBytes_length]; omega
  rw [← Memory.readBytes_getElem m 0 lim j hj']
  simp only [h, List.getElem_take]

end

/-! ### Lengths of images (30_encoding R97) -/

theorem extLen_nib (v : Nat) : extLen (nib v) = (ext v).length := by
  unfold nib ext
  split_ifs with h12 h268
  · have hv : (BitVec.ofNat 4 v).toNat = v := by
      rw [BitVec.toNat_ofNat]
      omega
    rw [extLen, hv, if_pos h12, List.length_nil]
  · rw [beBytes_length]
    rfl
  · rw [beBytes_length]
    rfl

theorem optionImage_length (d : Nat) (val : Bytes) :
    (optionImage d val).length = 1 + (ext d).length + (ext val.length).length + val.length := by
  simp only [optionImage, List.length_cons, List.length_append]
  omega

theorem optionsImage_length (p : Nat) (opt : List OptEntry) : (optionsImage p opt).length = optionsLen p opt := by
  induction opt generalizing p with
  | nil => rfl
  | cons e rest ih =>
    rw [optionsImage, optionsLen, List.length_append, ih, optionImage_length, optionLen, extLen_nib, extLen_nib]

@[simp] theorem payloadImage_nil : payloadImage [] = [] := rfl

theorem payloadImage_of_ne_nil {pay : Bytes} (h : pay ≠ []) : payloadImage pay = 0xFF :: pay :=
  if_pos (List.length_pos_iff.mpr h)

theorem payloadImage_length (pay : Bytes) :
    (payloadImage pay).length = if 0 < pay.length then 1 + pay.length else 0 := by
  unfold payloadImage
  split_ifs
  · rw [List.length_cons, Nat.add_comm]
  · rfl

theorem Message.tokenBytes_length {m : Message} (h : m.tkl.toNat ≤ 8) : m.tokenBytes.length = m.tkl.toNat := by
  simpa [Message.tokenBytes] using h

theorem Message.image_length_eq {m : Message} (h : m.tkl.toNat ≤ 8) :
    m.image.length =
      4 + m.tkl.toNat + (optionsImage 0 (stableSort m.opt)).length + (payloadImage m.pay).length := by
  simp only [Message.image, Message.headerImage, List.length_append, Message.tokenBytes_length h, List.length_cons,
    List.length_nil]

theorem Message.image_length {m : Message} (h : m.tkl.toNat ≤ 8) : m.image.length = m.encLen := by
  rw [Message.image_length_eq h, Message.encLen, optionsImage_length, payloadImage_length]

/-! ### Options in wire order -/

/-- The number of the last option, `p` where there is none. -/
def lastNum (p : OptNum) : List OptEntry → OptNum
  | [] => p
  | e :: rest => lastNum e.num rest

/-- The options can stand on the wire behind number `p` in this order: every number is reached by a delta and every
value by a length that one option header can carry (30_encoding R90). -/
def FitWire (p : OptNum) : List OptEntry → Prop
  | [] => True
  | e :: rest =>
    (p.toNat ≤ e.num.toNat ∧ e.num.toNat - p.toNat ≤ 65804 ∧ e.val.length ≤ 65804) ∧ FitWire e.num rest

theorem fitWire_append {p : OptNum} {xs ys : List OptEntry} :
    FitWire p (xs ++ ys) ↔ FitWire p xs ∧ FitWire (lastNum p xs) ys := by
  induction xs generalizing p with
  | nil => simp [FitWire, lastNum]
  | cons e xs ih => simp only [List.cons_append, FitWire, lastNum, ih, and_assoc]

theorem optionsImage_append (p : OptNum) (xs ys : List OptEntry) :
    optionsImage p.toNat (xs ++ ys) = optionsImage p.toNat xs ++ optionsImage (lastNum p xs).toNat ys := by
  induction xs generalizing p with
  | nil => rfl
  | cons e xs ih => simp only [List.cons_append, optionsImage, lastNum, ih, List.append_assoc]

theorem optionsImage_zero_append (xs ys : List OptEntry) :
    optionsImage 0 (xs ++ ys) = optionsImage 0 xs ++ optionsImage (lastNum 0 xs).toNat ys :=
  optionsImage_append 0 xs ys

theorem lastNum_append (p : OptNum) (xs ys : List OptEntry) : lastNum p (xs ++ ys) = lastNum (lastNum p xs) ys := by
  induction xs generalizing p with
  | nil => rfl
  | cons e xs ih => exact ih e.num

/-- In the terms of `WF` (10_state R33, R39): sorted, with short values and the gap property. -/
theorem fitWire_iff {p : OptNum} {opt : List OptEntry} :
    FitWire p opt ↔
      (∀ e ∈ opt, p.toNat ≤ e.num.toNat ∧ e.val.length ≤ 65804) ∧
        opt.Pairwise (fun a b => a.num.toNat ≤ b.num.toNat) ∧ gapsFit p.toNat opt = true := by
  induction opt generalizing p with
  | nil => simp [FitWire, gapsFit]
  | cons a rest ih =>
    rw [FitWire, ih, gapsFit, Bool.and_eq_true, decide_eq_true_eq, List.pairwise_cons, List.forall_mem_cons]
    constructor
    · rintro ⟨⟨hp, hgap, hval⟩, hall, hsorted, hrest⟩
      exact ⟨⟨⟨hp, hval⟩, fun e he => ⟨hp.trans (hall e he).1, (hall e he).2⟩⟩,
        ⟨fun e he => (hall e he).1, hsorted⟩, hgap, hrest⟩
    · rintro ⟨⟨⟨hp, hval⟩, hall⟩, ⟨hle, hsorted⟩, hgap, hrest⟩
      exact ⟨⟨hp, hgap, hval⟩, fun e he => ⟨hle e he, (hall e he).2⟩, hsorted, hrest⟩

theorem FitWire.stableSort_eq {p : OptNum} {opt : List OptEntry} (h : FitWire p opt) : stableSort opt = opt :=
  (fitWire_iff.mp h).2.1.insertionSort_eq

theorem Message.wf.fitWire {P : Config.Sizes} {m : Message} (h : m.wf P) : FitWire 0 (stableSort m.opt) := by
  obtain ⟨-, -, -, hval, -, hgap⟩ := h
  exact fitWire_iff.mpr
    ⟨fun e he => ⟨Nat.zero_le _, hval e (mem_stableSort.mp he)⟩, stableSort_sorted _, hgap⟩

theorem stableSort_idem (opt : List OptEntry) : stableSort (stableSort opt) = stableSort opt :=
  (stableSort_sorted opt).insertionSort_eq

/-! ### One option -/

/-- The variables of the parse behind the options `xs`. -/
def OptLoop.behind (o : OptLoop) (xs : List OptEntry) : OptLoop :=
  { o with
    pos := { o.pos with cur := o.pos.cur + (optionsImage o.prev.toNat xs).length }
    prev := lastNum o.prev xs
    opts := o.opts ++ xs }

theorem OptLoop.behind_append (o : OptLoop) (xs ys : List OptEntry) :
    o.behind (xs ++ ys) = (o.behind xs).behind ys := by
  simp only [OptLoop.behind, optionsImage_append, lastNum_append, List.length_append, List.append_assoc, Nat.add_assoc]

theorem optionsImage_singleton (p : Nat) (e : OptEntry) : optionsImage p [e] = optionImage (e.num.toNat - p) e.val :=
  List.append_nil _

theorem optNum_add_delta {p x : OptNum} (h : p.toNat ≤ x.toNat) :
    p + BitVec.ofNat Config.optNumW (x.toNat - p.toNat) = x := by
  apply BitVec.eq_of_toNat_eq
  have := x.isLt
  rw [BitVec.toNat_add, BitVec.toNat_ofNat, Nat.add_mod_mod, Nat.add_sub_cancel' h, Nat.mod_eq_of_lt this]

section
variable {m : Memory}

theorem readExt_of_shows {c : Cursor} {v : Nat} (hv : v ≤ 65804) (hs : m.Shows c.lim c.cur (ext v))
    (hle : c.cur + (ext v).length ≤ c.lim) :
    readExt m c (nib v) = some (v, { c with cur := c.cur + (ext v).length }) := by
  obtain ⟨-, -, hval⟩ := extVal_nib_ext hv
  refine readExt_eq_some.mpr ?_
  rw [extLen_nib, Memory.readInt, hs.readBytes hle, hval]
  exact ⟨.inr hle, rfl, rfl⟩

theorem optionElement_error_eq {dn ln : Nibble} {o : OptLoop} {x : Status} (hd : dn ≠ 15) (hl : ln ≠ 15)
    (h : optionElement dn ln m o = .error x) : x = .truncatedOption := by
  rw [optionElement, if_neg hd, if_neg hl] at h
  split at h
  · cases h; rfl
  · split at h
    · cases h; rfl
    · split at h
      · cases h; rfl
      · cases h

variable {o : OptLoop}

theorem optionElement_of_reads {dn ln : Nibble} {delta length : Nat} {val : Bytes} {c1 c2 c3 : Cursor} (hd : dn ≠ 15)
    (hl : ln ≠ 15) (h1 : readExt m ⟨o.pos.cur + 1, o.pos.lim⟩ dn = some (delta, c1))
    (h2 : readExt m c1 ln = some (length, c2)) (h3 : rdBytes m c2 length = some (val, c3)) :
    optionElement dn ln m o = .ok
      { o with
        pos := c3
        prev := o.prev + BitVec.ofNat Config.optNumW delta
        opts := o.opts ++ [{ num := o.prev + BitVec.ofNat Config.optNumW delta, val := val }] } := by
  simp only [optionElement, if_neg hd, if_neg hl, h1, h2, h3]

section
variable {d : Nat} {val : Bytes} (hd : d ≤ 65804) (hs : m.Shows o.pos.lim o.pos.cur (optionImage d val))
include hd hs

theorem optionTurn_of_image (hc : o.pos.cur < o.pos.lim) :
    optionTurn m o = (optionElement (nib d) (nib val.length) m o).map .more := by
  have hbyte : m.read o.pos.cur = optionByte (nib d) (nib val.length) := (Memory.shows_cons.mp hs).1 hc
  rcases optionTurn_cases m o with ⟨hmarker, -⟩ | ⟨-, ht⟩
  · exact absurd (Laws.optionByte_eq_marker.mp (hbyte.symm.trans hmarker)).1 (extVal_nib_ext hd).1
  · rw [ht, hbyte, Laws.highNibble_optionByte, Laws.lowNibble_optionByte]

variable (hv : val.length ≤ 65804)
include hv

/-- The element of an option whose bytes all lie below the limit reads the option back. -/
theorem optionElement_of_image (hle : o.pos.cur + (optionImage d val).length ≤ o.pos.lim) :
    optionElement (nib d) (nib val.length) m o = .ok
      { o with
        pos := { o.pos with cur := o.pos.cur + (optionImage d val).length }
        prev := o.prev + BitVec.ofNat Config.optNumW d
        opts := o.opts ++ [{ num := o.prev + BitVec.ofNat Config.optNumW d, val := val }] } := by
  rw [optionImage_length] at hle ⊢
  obtain ⟨-, hbehind⟩ := Memory.shows_cons.mp hs
  obtain ⟨hexts, hval⟩ := Memory.shows_append.mp hbehind
  obtain ⟨hdelta, hlength⟩ := Memory.shows_append.mp hexts
  rw [List.length_append, ← Nat.add_assoc] at hval
  have hread1 := readExt_of_shows (c := ⟨o.pos.cur + 1, o.pos.lim⟩) hd hdelta (by simp only; omega)
  have hread2 := readExt_of_shows (c := ⟨o.pos.cur + 1 + (ext d).length, o.pos.lim⟩) hv hlength
    (by simp only; omega)
  have hread3 := (rdBytes_eq_some (c := ⟨o.pos.cur + 1 + (ext d).length + (ext val.length).length, o.pos.lim⟩)).mpr
    ⟨by simp only; omega, (hval.readBytes (by omega)).symm, rfl⟩
  have h := optionElement_of_reads (extVal_nib_ext hd).1 (extVal_nib_ext hv).1 hread1 hread2 hread3
  simpa only [Nat.add_assoc] using h

/-- The element of an option some of whose bytes lie at or beyond the limit is truncated: where the bytes of its length
are there, they tell the length of its value. -/
theorem optionElement_of_cut_image (hlt : o.pos.lim < o.pos.cur + (optionImage d val).length) :
    optionElement (nib d) (nib val.length) m o = .error .truncatedOption := by
  rw [optionImage_length] at hlt
  cases he : optionElement (nib d) (nib val.length) m o with
  | error x => rw [optionElement_error_eq (extVal_nib_ext hd).1 (extVal_nib_ext hv).1 he]
  | ok o' =>
    obtain ⟨-, -, delta, length, c1, c2, h1, h2, hend, -⟩ := optionElement_eq_ok he
    obtain ⟨-, -, rfl⟩ := readExt_eq_some.mp h1
    obtain ⟨-, -, rfl⟩ := readExt_eq_some.mp h2
    simp only [extLen_nib] at h2 hend
    obtain ⟨-, hbehind⟩ := Memory.shows_cons.mp hs
    obtain ⟨hexts, -⟩ := Memory.shows_append.mp hbehind
    obtain ⟨-, hlength⟩ := Memory.shows_append.mp hexts
    have h2' := readExt_of_shows (c := { o.pos with cur := o.pos.cur + 1 + (ext d).length }) hv hlength
      (by simp only; omega)
    have hsame : val.length = length := by simpa using h2'.symm.trans h2
    omega

end

/-! ### The options and what stands behind them -/

theorem optionsFrom_at_end (h : o.pos.lim ≤ o.pos.cur) : optionsFrom m o = .ok (o.message []) := by
  rw [optionsFrom_eq, if_neg (Nat.not_lt.mpr h)]

/-- A parse before options whose bytes all lie below the limit gets behind them. -/
theorem optionsFrom_behind {xs : List OptEntry} (hx : FitWire o.prev xs)
    (hs : m.Shows o.pos.lim o.pos.cur (optionsImage o.prev.toNat xs))
    (hle : o.pos.cur + (optionsImage o.prev.toNat xs).length ≤ o.pos.lim) :
    optionsFrom m o = optionsFrom m (o.behind xs) := by
  induction xs generalizing o with
  | nil => simp [OptLoop.behind, optionsImage, lastNum]
  | cons e xs ih =>
    obtain ⟨⟨hnum, hd, hv⟩, hrest⟩ := hx
    obtain ⟨hfirst, hbehind⟩ := Memory.shows_append.mp hs
    rw [optionsImage, List.length_append] at hle
    have hpos : 0 < (optionImage (e.num.toNat - o.prev.toNat) e.val).length := Nat.succ_pos _
    have hone : optionTurn m o = .ok (.more (o.behind [e])) := by
      rw [optionTurn_of_image hd hfirst (by omega), optionElement_of_image hd hfirst hv (by omega),
        optNum_add_delta hnum]
      simp only [Except.map, OptLoop.behind, optionsImage_singleton, lastNum]
    have hrec : optionsFrom m (o.behind [e]) = optionsFrom m ((o.behind [e]).behind xs) := by
      refine ih (o := o.behind [e]) hrest ?_ ?_
      · simpa only [OptLoop.behind, optionsImage_singleton, lastNum] using hbehind
      · simp only [OptLoop.behind, optionsImage_singleton, lastNum]
        omega
    rw [optionsFrom_eq, if_pos (by omega), hone]
    exact hrec.trans (congrArg (optionsFrom m) (o.behind_append [e] xs).symm)

theorem optionsFrom_of_cut_option {e : OptEntry} {rest : List OptEntry} (he : FitWire o.prev (e :: rest))
    (hs : m.Shows o.pos.lim o.pos.cur (optionImage (e.num.toNat - o.prev.toNat) e.val)) (hc : o.pos.cur < o.pos.lim)
    (hlt : o.pos.lim < o.pos.cur + (optionImage (e.num.toNat - o.prev.toNat) e.val).length) :
    optionsFrom m o = .error .truncatedOption := by
  obtain ⟨⟨-, hd, hv⟩, -⟩ := he
  rw [optionsFrom_eq, if_pos hc, optionTurn_of_image hd hs hc, optionElement_of_cut_image hd hs hv hlt]
  rfl

theorem optionTurn_of_marker (h : m.read o.pos.cur = 0xFF) :
    optionTurn m o = (markerElement m o).map (fun pay => .done (o.message pay)) := by
  rcases optionTurn_cases m o with ⟨-, ht⟩ | ⟨hne, -⟩
  · exact ht
  · exact absurd h hne

theorem optionsFrom_of_last_marker (h : m.read o.pos.cur = 0xFF) (hlim : o.pos.lim = o.pos.cur + 1) :
    optionsFrom m o = .error .missingPayloadAfterMarker := by
  rw [optionsFrom_eq, if_pos (by omega), optionTurn_of_marker h, markerElement, if_pos hlim.symm]
  rfl

theorem optionsFrom_of_payload {pay : Bytes} (hs : m.Shows o.pos.lim o.pos.cur (0xFF :: pay))
    (hlt : o.pos.cur + 1 < o.pos.lim) (hle : o.pos.lim ≤ o.pos.cur + 1 + pay.length) :
    optionsFrom m o = .ok (o.message (pay.take (o.pos.lim - o.pos.cur - 1))) := by
  obtain ⟨hmarker, hpay⟩ := Memory.shows_cons.mp hs
  rw [optionsFrom_eq, if_pos (by omega), optionTurn_of_marker (hmarker (by omega)), markerElement,
    if_neg (by omega), hpay.readBytes_take (by omega) hle, Nat.sub_sub]
  rfl

end

end Sys2Proof.Machine
end

section
/-! SUPPORT. What `PARSE` makes of the image of a well-formed message (41_serialize R157), whole or cut off at any
length, row by row (40_parse R136); from it, that it delivers the message (R128) and undoes `SERIALIZE` (R135 a). -/

namespace Sys2Proof.Machine

/-- The variables of the parse of a datagram of `lim` bytes behind the header and token of `m`. -/
def Message.behindToken (m : Message) (lim : Nat) : OptLoop :=
  { pos := { cur := 4 + m.tkl.toNat, lim := lim }, mtype := m.mtype, tkl := m.tkl, code := m.code, mid := m.mid,
    tok := m.tokenBytes, prev := 0, opts := [] }

/-- The offset just after the `j`-th of the sorted options in the image of `m` (R136). -/
def Message.optionEnd (m : Message) (j : Nat) : Nat :=
  4 + m.tkl.toNat + (optionsImage 0 ((stableSort m.opt).take j)).length

theorem Message.optionEnd_all (m : Message) :
    m.optionEnd m.opt.length = 4 + m.tkl.toNat + (optionsImage 0 (stableSort m.opt)).length := by
  rw [Message.optionEnd, List.take_of_length_le (stableSort_length m.opt).le]

theorem Message.optionEnd_succ {m : Message} {j : Nat} (h : j < (stableSort m.opt).length) :
    m.optionEnd (j + 1) = m.optionEnd j +
      (optionImage ((stableSort m.opt)[j].num.toNat - (lastNum 0 ((stableSort m.opt).take j)).toNat)
        (stableSort m.opt)[j].val).length := by
  rw [Message.optionEnd, Message.optionEnd, List.take_succ_eq_append_getElem h, optionsImage_zero_append,
    optionsImage_singleton, List.length_append, ← Nat.add_assoc]

theorem Message.image_length_eq_optionEnd {m : Message} (h : m.tkl.toNat ≤ 8) :
    m.image.length = m.optionEnd m.opt.length + (payloadImage m.pay).length := by
  rw [Message.image_length_eq h, Message.optionEnd_all]

/-- The token register of a well-formed message holds its token and zeros above (10_state R24, R33). -/
theorem Message.wf.tokenRegister_tokenBytes {P : Config.Sizes} {m : Message} (h : m.wf P) :
    tokenRegister m.tokenBytes = m.token := by
  obtain ⟨-, hzero, -⟩ := h
  refine Vector.ext fun i hi => ?_
  rw [tokenRegister_getElem _ _ hi, Message.tokenBytes]
  by_cases hlt : i < m.tkl.toNat
  · simp [List.getD_eq_getElem?_getD, hlt, hi]
  · rw [List.getD_eq_default _ _ (by simp; omega)]
    exact (hzero ⟨i, hi⟩ (Nat.le_of_not_lt hlt)).symm

theorem readHeader_of_image {m : Message} {mem : Memory} {k : Nat} (hs : mem.Shows k 0 m.image) (h4 : 4 ≤ k) :
    readHeader mem k = headerElement m.mtype m.tkl m.code m.mid mem k := by
  simp only [Message.image, Message.headerImage, List.cons_append, Memory.shows_cons] at hs
  obtain ⟨h0, h1, h2, h3, -⟩ := hs
  have hb0 := h0 (by omega)
  rw [Message.ver_eq] at hb0
  rw [readHeader_of_header h4 (by rw [hb0, Laws.headerVer_headerByte0]), hb0, Laws.headerType_headerByte0,
    Laws.headerTkl_headerByte0, h1 (by omega), h2 (by omega), h3 (by omega), Laws.midOf_midHi_midLo]

section
variable {P : Config.Sizes} {m : Message} (hm : m.wf P)
include hm

theorem Message.wf.message_behind (lim : Nat) (xs : List OptEntry) (pay : Bytes) :
    ((m.behindToken lim).behind xs).message pay = { m with opt := xs, pay := pay } := by
  simp only [Message.behindToken, OptLoop.behind, OptLoop.message, List.nil_append, hm.tokenRegister_tokenBytes]

variable {mem : Memory} {k : Nat} (hs : mem.Shows k 0 m.image)
include hs

/-- Behind the four bytes of the header stand the token, the options and the payload. -/
theorem shows_behind_header :
    mem.Shows k 4 m.tokenBytes ∧
      mem.Shows k (4 + m.tkl.toNat) (optionsImage 0 (stableSort m.opt) ++ payloadImage m.pay) := by
  rw [Message.image, List.append_assoc, List.append_assoc] at hs
  obtain ⟨-, hrest⟩ := Memory.shows_append.mp hs
  have hlen : 0 + m.headerImage.length = 4 := rfl
  rw [hlen, Memory.shows_append, Message.tokenBytes_length hm.1] at hrest
  exact hrest

theorem parseDatagram_of_cut_token (h4 : 4 ≤ k) (hk : k < 4 + m.tkl.toNat) :
    parseDatagram mem k = .error .truncatedToken :=
  parseDatagram_of_readHeader_error
    ((readHeader_of_image hs h4).trans (headerElement_eq_error.mpr (.inr ⟨hm.1, hk, rfl⟩)))

/-- The parse of an image gets behind each of the sorted options that lies below the limit, where it meets the rest. -/
theorem parseDatagram_behind {xs ys : List OptEntry} (hxy : stableSort m.opt = xs ++ ys)
    (hk : 4 + m.tkl.toNat + (optionsImage 0 xs).length ≤ k) :
    parseDatagram mem k = optionsFrom mem ((m.behindToken k).behind xs) ∧
      mem.Shows k (4 + m.tkl.toNat + (optionsImage 0 xs).length)
        (optionsImage (lastNum 0 xs).toNat ys ++ payloadImage m.pay) := by
  obtain ⟨htoken, hrest⟩ := shows_behind_header hm hs
  rw [hxy, optionsImage_zero_append, List.append_assoc, Memory.shows_append] at hrest
  obtain ⟨hopts, hbehind⟩ := hrest
  have hread : mem.readBytes 4 m.tkl.toNat = m.tokenBytes := by
    have h := htoken.readBytes
    rw [Message.tokenBytes_length hm.1] at h
    exact h (by omega)
  have hhead : readHeader mem k = .ok (m.behindToken k) := by
    rw [readHeader_of_image hs (by omega), headerElement_eq_ok, hread]
    exact ⟨hm.1, by omega, rfl⟩
  have hfit := hm.fitWire
  rw [hxy, fitWire_append] at hfit
  refine ⟨?_, hbehind⟩
  rw [parseDatagram_of_readHeader_ok hhead]
  exact optionsFrom_behind (o := m.behindToken k) hfit.1 hopts hk

theorem parseDatagram_of_optionEnd {j : Nat} (hk : k = m.optionEnd j) :
    parseDatagram mem k = .ok { m with opt := (stableSort m.opt).take j, pay := [] } := by
  obtain ⟨hparse, -⟩ := parseDatagram_behind hm hs (List.take_append_drop j _).symm hk.ge
  rw [hparse, optionsFrom_at_end hk.le, hm.message_behind]

theorem parseDatagram_of_cut_option {j : Nat} (hj : j < m.opt.length) (hlt : m.optionEnd j < k)
    (hgt : k < m.optionEnd (j + 1)) : parseDatagram mem k = .error .truncatedOption := by
  rw [← stableSort_length m.opt] at hj
  obtain ⟨hparse, hrest⟩ := parseDatagram_behind hm hs (List.take_append_drop j _).symm hlt.le
  rw [List.drop_eq_getElem_cons hj, optionsImage, List.append_assoc, Memory.shows_append] at hrest
  have hfit := hm.fitWire
  rw [← List.take_append_drop j (stableSort m.opt), List.drop_eq_getElem_cons hj, fitWire_append] at hfit
  rw [Message.optionEnd_succ hj] at hgt
  rw [hparse]
  exact optionsFrom_of_cut_option (o := (m.behindToken k).behind _) hfit.2 hrest.1 hlt hgt

/-- Behind the last option stands the marker with the payload, where there is one. -/
theorem parseDatagram_behind_options (hlt : m.optionEnd m.opt.length < k) (hle : k ≤ m.image.length) :
    parseDatagram mem k = optionsFrom mem ((m.behindToken k).behind (stableSort m.opt)) ∧
      mem.Shows k (m.optionEnd m.opt.length) (0xFF :: m.pay) := by
  have hne : m.pay ≠ [] := by
    intro h0
    rw [Message.image_length_eq_optionEnd hm.1, h0, payloadImage_nil, List.length_nil] at hle
    omega
  rw [Message.optionEnd_all] at hlt ⊢
  obtain ⟨hparse, hrest⟩ := parseDatagram_behind hm hs (List.append_nil _).symm hlt.le
  rw [payloadImage_of_ne_nil hne] at hrest
  exact ⟨hparse, hrest⟩

theorem parseDatagram_of_marker_end (hk : k = m.optionEnd m.opt.length + 1) (hle : k ≤ m.image.length) :
    parseDatagram mem k = .error .missingPayloadAfterMarker := by
  obtain ⟨hparse, hrest⟩ := parseDatagram_behind_options hm hs (by omega) hle
  rw [Message.optionEnd_all] at hk hrest
  rw [hparse]
  exact optionsFrom_of_last_marker (o := (m.behindToken k).behind _) ((Memory.shows_cons.mp hrest).1 (by omega)) hk

theorem parseDatagram_of_payload (hlt : m.optionEnd m.opt.length + 1 < k) (hle : k ≤ m.image.length) :
    parseDatagram mem k =
      .ok { m with opt := stableSort m.opt, pay := m.pay.take (k - m.optionEnd m.opt.length - 1) } := by
  obtain ⟨hparse, hrest⟩ := parseDatagram_behind_options hm hs (by omega) hle
  have hpay : m.image.length ≤ m.optionEnd m.opt.length + 1 + m.pay.length := by
    rw [Message.image_length_eq_optionEnd hm.1, payloadImage_length]
    split_ifs <;> omega
  rw [Message.optionEnd_all] at hlt hrest hpay ⊢
  rw [hparse, ← hm.message_behind k]
  exact optionsFrom_of_payload (o := (m.behindToken k).behind _) hrest hlt (hle.trans hpay)

end

/-- Settles O37: below its first `k` bytes the buffer shows the image, and each row of R136 is the parse of an image
that the limit cuts off there. -/
theorem parseOfTruncatedImage : Obligations.ParseOfTruncatedImage := by
  intro k s m hm hlt hle hread
  have hs := Memory.shows_of_readBytes hread
  have hk : k.toNat ≤ 1024 := by omega
  refine ⟨fun h => ?_, fun h4 h => ?_, fun j _ h => ?_, fun j hj h h' => ?_, fun h => ?_, fun h => ?_⟩
  · exact exec_parse_endsCleared hk (parseDatagram_of_readHeader_error (readHeader_of_short h))
  · exact exec_parse_endsCleared hk (parseDatagram_of_cut_token hm hs h4 h)
  · exact exec_parse_delivers hk (parseDatagram_of_optionEnd hm hs h)
  · exact exec_parse_endsCleared hk (parseDatagram_of_cut_option hm hs hj h h')
  · exact exec_parse_endsCleared hk (parseDatagram_of_marker_end hm hs h hlt.le)
  · exact exec_parse_delivers hk (parseDatagram_of_payload hm hs h hlt.le)

/-- The whole image, with a payload or without one, gives the message back, its options sorted. -/
theorem parseDatagram_image {P : Config.Sizes} {m : Message} {mem : Memory} (hm : m.wf P)
    (hs : mem.Shows m.image.length 0 m.image) :
    parseDatagram mem m.image.length = .ok { m with opt := stableSort m.opt } := by
  have hlen := Message.image_length_eq_optionEnd hm.1
  by_cases hpay : m.pay = []
  · rw [hpay, payloadImage_nil, List.length_nil, Nat.add_zero] at hlen
    rw [parseDatagram_of_optionEnd hm hs hlen, List.take_of_length_le (stableSort_length m.opt).le, ← hpay]
  · have hpos := List.length_pos_iff.mpr hpay
    rw [payloadImage_of_ne_nil hpay, List.length_cons] at hlen
    rw [parseDatagram_of_payload hm hs (by omega) le_rfl, List.take_of_length_le (by omega)]

/-- Settles O34: the buffer shows the whole image. -/
theorem parseDeliversTheMessage : Obligations.ParseDeliversTheMessage := by
  intro n s m hm hlen hn hread
  refine exec_parse_delivers hn ?_
  rw [← hlen] at hread ⊢
  exact parseDatagram_image hm (Memory.shows_of_readBytes (by rw [hread, List.take_length]))

/-- A `SERIALIZE` that ends with `OK` wrote the image at offset 0 and answers its length. -/
theorem exec_serialize_eq_ok {cap : Word} {s u : State} (h : exec (.serialize cap) s = .next u)
    (hu : u.status = 0x00) :
    s.msg.image.length ≤ 1024 ∧
      u = { s with dbuf := s.dbuf.writeBytes 0 s.msg.image }.returnOk (lenWord s.msg.image.length) 0 [] := by
  have h : execSerialize cap s = .next u := h
  rcases execSerialize_cases cap s with ⟨-, he⟩ | ⟨x, hx, he⟩ | ⟨hcap, -, -, hlen, -, he⟩
  · cases he.symm.trans h
  · cases he.symm.trans h
    simp only [List.mem_cons, List.not_mem_nil, or_false] at hx
    rcases hx with rfl | rfl | rfl | rfl <;> cases hu
  · cases he.symm.trans h
    exact ⟨hlen.trans hcap, rfl⟩

/-- Settles O35: `SERIALIZE` wrote the image of the message, which `PARSE` of its length gives back; sorting twice is
sorting once. -/
theorem parseAfterSerialize : Obligations.ParseAfterSerialize := by
  intro cap s u hm h hu
  obtain ⟨hle, rfl⟩ := exec_serialize_eq_ok h hu
  have hlen : (lenWord s.msg.image.length).toNat = s.msg.image.length := by
    rw [lenWord, BitVec.toNat_ofNat]
    omega
  refine ⟨?_, rfl, rfl, rfl, rfl, rfl, rfl, stableSort_idem _⟩
  exact parseDeliversTheMessage (lenWord s.msg.image.length) _ s.msg hm hlen.symm (hlen.trans_le hle)
    ((congrArg (Memory.readBytes _ 0) hlen).trans (Memory.readBytes_writeBytes _ _ _))

end Sys2Proof.Machine
end

section
/-! SUPPORT. What a successful parse says of the datagram (40_parse R122 to R128): its bytes are the image of the
message it delivers, whose options stand in wire order. From it the rules on parsed options (R134, R138), and that
`SERIALIZE` writes the same datagram back (R135 b). -/

namespace Sys2Proof.Machine

/-! ### Fields put together again -/

theorem optionByte_nibbles (b : Byte) : optionByte (highNibble b) (lowNibble b) = b := by
  revert b; decide

theorem headerByte0_fields {b : Byte} (h : headerVer b = 1) : headerByte0 1 (headerType b) (headerTkl b) = b := by
  revert b; decide

theorem midHi_midOf (b c : Byte) : midHi (midOf b c) = b := by
  refine BitVec.eq_of_getLsbD_eq fun i hi => ?_
  simp only [midHi, midOf, BitVec.getLsbD_extractLsb', BitVec.getLsbD_append]
  simp [hi]

theorem midLo_midOf (b c : Byte) : midLo (midOf b c) = c := by
  refine BitVec.eq_of_getLsbD_eq fun i hi => ?_
  simp only [midLo, midOf, BitVec.getLsbD_extractLsb', BitVec.getLsbD_append]
  simp [hi]

/-! ### How far options in wire order get (R134) -/

/-- A delta is at most 65804 for each three bytes of its option. -/
theorem three_mul_delta_le {d : Nat} (h : d ≤ 65804) (val : Bytes) :
    3 * d ≤ 65804 * (optionImage d val).length := by
  rw [optionImage_length]
  rcases value_ranges h with h12 | ⟨e, he, rfl⟩ | ⟨e, he, rfl⟩
  · omega
  · omega
  · rw [(nib_ext_add_269 e).2, beBytes_length]
    omega

theorem FitWire.le_lastNum {p : OptNum} {xs : List OptEntry} (h : FitWire p xs) :
    p.toNat ≤ (lastNum p xs).toNat ∧ ∀ e ∈ xs, e.num.toNat ≤ (lastNum p xs).toNat := by
  induction xs generalizing p with
  | nil => simp [lastNum]
  | cons a xs ih =>
    obtain ⟨⟨hp, -, -⟩, hrest⟩ := h
    obtain ⟨hle, hall⟩ := ih hrest
    exact ⟨hp.trans hle, List.forall_mem_cons.mpr ⟨hle, hall⟩⟩

theorem FitWire.three_mul_lastNum_le {p : OptNum} {xs : List OptEntry} (h : FitWire p xs) :
    3 * (lastNum p xs).toNat ≤ 3 * p.toNat + 65804 * (optionsImage p.toNat xs).length := by
  induction xs generalizing p with
  | nil => simp [lastNum]
  | cons a xs ih =>
    obtain ⟨⟨hp, hd, -⟩, hrest⟩ := h
    have hdelta := three_mul_delta_le hd a.val
    have hlast := ih hrest
    rw [lastNum, optionsImage, List.length_append]
    omega

theorem length_add_optBytes_le (p : Nat) (xs : List OptEntry) :
    xs.length + optBytes xs ≤ (optionsImage p xs).length := by
  induction xs generalizing p with
  | nil => simp
  | cons a xs ih =>
    have hrest := ih a.num.toNat
    rw [← List.singleton_append, optBytes_append, optBytes_singleton, List.singleton_append, optionsImage,
      List.length_append, List.length_cons, optionImage_length]
    omega

/-! ### One turn of the option loop -/

section
variable {m : Memory}

/-- A turn that goes on is an option element, by the two nibbles of the byte at the cursor. -/
theorem optionTurn_more_element {o o' : OptLoop} (h : optionTurn m o = .ok (.more o')) :
    optionElement (highNibble (m.read o.pos.cur)) (lowNibble (m.read o.pos.cur)) m o = .ok o' := by
  rcases optionTurn_cases m o with ⟨-, ht⟩ | ⟨-, ht⟩
  · rw [ht] at h
    cases hm : markerElement m o <;> simp [hm, Except.map] at h
  · rw [ht] at h
    cases he : optionElement (highNibble (m.read o.pos.cur)) (lowNibble (m.read o.pos.cur)) m o <;>
      simp_all [Except.map]

/-- A turn that ends the message read a marker and the payload behind it, to the end of the datagram. -/
theorem optionTurn_done_payload {o : OptLoop} {msg : Message} (hc : o.pos.cur < o.pos.lim)
    (h : optionTurn m o = .ok (.done msg)) :
    ∃ pay, msg = o.message pay ∧ m.readBytes o.pos.cur (o.pos.lim - o.pos.cur) = payloadImage pay := by
  obtain ⟨pay, hp, hmsg⟩ := optionTurn_eq_done h
  obtain ⟨hne, hpay⟩ := markerElement_eq_ok.mp hp
  have hmarker : m.read o.pos.cur = 0xFF := by
    rcases optionTurn_cases m o with ⟨hmarker, -⟩ | ⟨-, ht⟩
    · exact hmarker
    · rw [ht] at h
      cases he : optionElement (highNibble (m.read o.pos.cur)) (lowNibble (m.read o.pos.cur)) m o <;>
        simp [he, Except.map] at h
  have hlen : o.pos.lim - o.pos.cur = o.pos.lim - (o.pos.cur + 1) + 1 := by omega
  have hnil : pay ≠ [] := by
    rw [← List.length_pos_iff, hpay, Memory.readBytes_length]
    omega
  refine ⟨pay, hmsg, ?_⟩
  rw [hlen, Memory.readBytes, hmarker, ← hpay, payloadImage_of_ne_nil hnil]

/-- Where an option element succeeds, the bytes behind its header byte are those of the image of the option it adds. -/
theorem optionElement_ok_image {dn ln : Nibble} {o o' : OptLoop} (h : optionElement dn ln m o = .ok o') :
    ∃ d val, d ≤ 65804 ∧ val.length ≤ 65804 ∧ dn = nib d ∧ ln = nib val.length ∧
      o.pos.cur + (optionImage d val).length ≤ o.pos.lim ∧
      m.readBytes (o.pos.cur + 1) ((ext d).length + (ext val.length).length + val.length)
        = ext d ++ ext val.length ++ val ∧
      o' = { o with
        pos := { o.pos with cur := o.pos.cur + (optionImage d val).length }
        prev := o.prev + BitVec.ofNat Config.optNumW d
        opts := o.opts ++ [{ num := o.prev + BitVec.ofNat Config.optNumW d, val := val }] } := by
  obtain ⟨hdn, hln, d, l, c1, c2, h1, h2, hend, rfl⟩ := optionElement_eq_ok h
  have hd := readExt_value_le hdn h1
  have hl := readExt_value_le hln h2
  obtain ⟨-, hdval, rfl⟩ := readExt_eq_some.mp h1
  obtain ⟨-, hlval, rfl⟩ := readExt_eq_some.mp h2
  obtain ⟨hnd, hxd⟩ := nib_ext_extVal hdn (Memory.readBytes_length m (o.pos.cur + 1) (extLen dn))
  obtain ⟨hnl, hxl⟩ := nib_ext_extVal hln (Memory.readBytes_length m (o.pos.cur + 1 + extLen dn) (extLen ln))
  simp only [Memory.readInt] at hdval hlval hend
  rw [← hdval] at hnd hxd
  rw [← hlval] at hnl hxl
  have hld : (ext d).length = extLen dn := by rw [hxd, Memory.readBytes_length]
  have hll : (ext l).length = extLen ln := by rw [hxl, Memory.readBytes_length]
  refine ⟨d, m.readBytes (o.pos.cur + 1 + extLen dn + extLen ln) l, hd, ?_, hnd.symm, ?_, ?_, ?_, ?_⟩ <;>
    simp only [optionImage_length, Memory.readBytes_length, hld, hll]
  · exact hl
  · exact hnl.symm
  · omega
  · rw [Memory.readBytes_add, Memory.readBytes_add, hxd, hxl, Nat.add_assoc (o.pos.cur + 1)]
  · simp only [Nat.add_assoc]

/-- One turn of the loop that goes on read an option in wire order; its number cannot wrap, since each three bytes of
the datagram so far account for 65804 of it (R134). -/
theorem optionTurn_more_behind {o o' : OptLoop} (h : optionTurn m o = .ok (.more o'))
    (hsum : 3 * o.prev.toNat + 4 * 65804 ≤ 65804 * o.pos.cur) (hlim : o.pos.lim / 3 * 65804 < 2 ^ Config.optNumW) :
    ∃ e, o' = o.behind [e] ∧ FitWire o.prev [e] ∧ o'.pos.cur ≤ o'.pos.lim ∧
      m.readBytes o.pos.cur (optionsImage o.prev.toNat [e]).length = optionsImage o.prev.toNat [e] := by
  obtain ⟨d, val, hd, hv, hdn, hln, hend, hbytes, rfl⟩ := optionElement_ok_image (optionTurn_more_element h)
  have hdelta := three_mul_delta_le hd val
  have hnum : (o.prev + BitVec.ofNat Config.optNumW d).toNat = o.prev.toNat + d := by
    rw [BitVec.toNat_add, BitVec.toNat_ofNat, Nat.add_mod_mod, Nat.mod_eq_of_lt]
    generalize 2 ^ Config.optNumW = bound at hlim ⊢
    omega
  have hgap : (o.prev + BitVec.ofNat Config.optNumW d).toNat - o.prev.toNat = d := by omega
  have hle : o.prev.toNat ≤ (o.prev + BitVec.ofNat Config.optNumW d).toNat := by omega
  refine ⟨{ num := o.prev + BitVec.ofNat Config.optNumW d, val := val }, ?_,
    ⟨⟨hle, hgap.trans_le hd, hv⟩, trivial⟩, hend, ?_⟩
  · simp only [OptLoop.behind, optionsImage_singleton, hgap, lastNum]
  · rw [optionsImage_singleton, hgap, optionImage_length, Nat.add_assoc 1, Nat.add_assoc 1, Nat.add_comm 1,
      Memory.readBytes, hbytes, optionImage, ← hdn, ← hln, optionByte_nibbles]

/-! ### The whole datagram -/

/-- The parse of a datagram keeps whatever each turn of its option loop keeps; it ends at the end of the datagram or
behind the marker. -/
theorem optionsFrom_ok_cases {I : OptLoop → Prop} {o : OptLoop} {msg : Message}
    (hI : ∀ o o', I o → optionTurn m o = .ok (.more o') → I o') (ho : I o) (h : optionsFrom m o = .ok msg) :
    ∃ o', I o' ∧ ((o'.pos.lim ≤ o'.pos.cur ∧ msg = o'.message []) ∨
      (o'.pos.cur < o'.pos.lim ∧ optionTurn m o' = .ok (.done msg))) := by
  generalize hk : o.pos.lim - o.pos.cur = k
  induction k using Nat.strongRecOn generalizing o with
  | _ k ih =>
    rw [optionsFrom_eq] at h
    by_cases hc : o.pos.cur < o.pos.lim
    · rw [if_pos hc] at h
      cases ht : optionTurn m o with
      | error x => simp [ht] at h
      | ok r =>
        cases r with
        | done msg' =>
          obtain rfl : msg' = msg := by simpa [ht] using h
          exact ⟨o, ho, .inr ⟨hc, ht⟩⟩
        | more o' =>
          obtain ⟨hadv, hle, hlim⟩ := optionTurn_advances ht
          exact ih _ (by omega) (hI o o' ho ht) (by simpa [ht] using h) rfl
    · rw [if_neg hc] at h
      cases h
      exact ⟨o, ho, .inl ⟨Nat.le_of_not_lt hc, rfl⟩⟩

/-- What the options read so far leave: the variables behind them, options in wire order, whose image the buffer
holds. -/
def OptLoop.Reached (m : Memory) (o o' : OptLoop) : Prop :=
  ∃ xs, o' = o.behind xs ∧ FitWire o.prev xs ∧ o'.pos.cur ≤ o'.pos.lim ∧
    m.readBytes o.pos.cur (optionsImage o.prev.toNat xs).length = optionsImage o.prev.toNat xs

theorem OptLoop.reached_refl {o : OptLoop} (h : o.pos.cur ≤ o.pos.lim) : o.Reached m o :=
  ⟨[], by simp [OptLoop.behind, optionsImage, lastNum], trivial, h, rfl⟩

theorem OptLoop.Reached.more {o o' o'' : OptLoop} (h : o.Reached m o') (ht : optionTurn m o' = .ok (.more o''))
    (hsum : 3 * o.prev.toNat + 4 * 65804 ≤ 65804 * o.pos.cur) (hlim : o.pos.lim / 3 * 65804 < 2 ^ Config.optNumW) :
    o.Reached m o'' := by
  obtain ⟨xs, rfl, hfit, -, hbytes⟩ := h
  have hlast := hfit.three_mul_lastNum_le
  obtain ⟨e, rfl, hone, hle, hone_bytes⟩ := optionTurn_more_behind ht (by simp only [OptLoop.behind]; omega) hlim
  refine ⟨xs ++ [e], (o.behind_append xs [e]).symm, fitWire_append.mpr ⟨hfit, hone⟩, hle, ?_⟩
  rw [optionsImage_append, List.length_append, Memory.readBytes_add, hbytes]
  exact congrArg _ hone_bytes

/-- Where the parse of the options ends, the rest of the datagram is the image of the payload. -/
theorem optionsFrom_ok_image {o : OptLoop} {msg : Message} (h : optionsFrom m o = .ok msg)
    (hle : o.pos.cur ≤ o.pos.lim) (hsum : 3 * o.prev.toNat + 4 * 65804 ≤ 65804 * o.pos.cur)
    (hlim : o.pos.lim / 3 * 65804 < 2 ^ Config.optNumW) :
    ∃ xs pay, msg = (o.behind xs).message pay ∧ FitWire o.prev xs ∧
      m.readBytes o.pos.cur (o.pos.lim - o.pos.cur) = optionsImage o.prev.toNat xs ++ payloadImage pay := by
  obtain ⟨o', ⟨xs, rfl, hfit, hcur, hbytes⟩, hend⟩ :=
    optionsFrom_ok_cases (I := o.Reached m) (fun _ _ h ht => h.more ht hsum hlim) (OptLoop.reached_refl hle) h
  have hpay : ∃ pay, msg = (o.behind xs).message pay ∧
      m.readBytes (o.behind xs).pos.cur ((o.behind xs).pos.lim - (o.behind xs).pos.cur) = payloadImage pay := by
    rcases hend with ⟨hstop, hmsg⟩ | ⟨hlt, ht⟩
    · rw [Nat.sub_eq_zero_of_le hstop]
      exact ⟨[], hmsg, rfl⟩
    · exact optionTurn_done_payload hlt ht
  obtain ⟨pay, hmsg, hpay⟩ := hpay
  have hsplit : o.pos.lim - o.pos.cur =
      (optionsImage o.prev.toNat xs).length + ((o.behind xs).pos.lim - (o.behind xs).pos.cur) := by
    simp only [OptLoop.behind] at hcur ⊢
    omega
  refine ⟨xs, pay, hmsg, hfit, ?_⟩
  rw [hsplit, Memory.readBytes_add, hbytes]
  exact congrArg _ hpay

theorem readHeader_ok_version {n : Nat} {o : OptLoop} (h : readHeader m n = .ok o) :
    4 ≤ n ∧ headerVer (m.read 0) = 1 := by
  by_cases h4 : n < 4
  · cases (readHeader_of_short h4).symm.trans h
  · by_cases hv : headerVer (m.read 0) = 1
    · exact ⟨Nat.le_of_not_lt h4, hv⟩
    · cases (readHeader_of_version (Nat.le_of_not_lt h4) hv).symm.trans h

/-- A successful parse delivers, its options in wire order, the message whose image the datagram is. -/
theorem parseDatagram_ok_image {n : Nat} {msg : Message} (h : parseDatagram m n = .ok msg)
    (hn : n / 3 * 65804 < 2 ^ Config.optNumW) :
    msg.tkl.toNat ≤ 8 ∧ FitWire 0 msg.opt ∧ m.readBytes 0 n = msg.image := by
  cases hr : readHeader m n with
  | error x => cases (parseDatagram_of_readHeader_error hr).symm.trans h
  | ok o =>
    rw [parseDatagram_of_readHeader_ok hr] at h
    obtain ⟨-, hver⟩ := readHeader_ok_version hr
    obtain ⟨htkl, hle, rfl⟩ := headerElement_eq_ok.mp (readHeader_eq_ok hr)
    have h0 : (0 : OptNum).toNat = 0 := rfl
    obtain ⟨xs, pay, rfl, hfit, hbytes⟩ := optionsFrom_ok_image h hle (by simp only [h0]; omega) hn
    refine ⟨htkl, hfit, ?_⟩
    have hsplit : n = 4 + (headerTkl (m.read 0)).toNat + (n - (4 + (headerTkl (m.read 0)).toNat)) := by omega
    have hheader : m.readBytes 0 4 = [m.read 0, m.read 1, m.read 2, m.read 3] := rfl
    have htoken := tokenRegister_take (m.readBytes 4 (headerTkl (m.read 0)).toNat)
      (by rw [Memory.readBytes_length]; exact htkl)
    rw [Memory.readBytes_length] at htoken
    rw [hsplit, Memory.readBytes_add, Memory.readBytes_add, hheader, Nat.zero_add, Nat.zero_add, hbytes]
    simp only [Message.image, Message.headerImage, Message.tokenBytes, OptLoop.message, OptLoop.behind, Message.ver_eq,
      headerByte0_fields hver, midHi_midOf, midLo_midOf, htoken, List.nil_append, hfit.stableSort_eq, List.append_assoc]
    rfl

end

/-! ### What follows for a `PARSE` that ends with `OK` -/

theorem numbers_fit {P : Config.Sizes} (hP : P.admissible) {n : Nat} (hn : n ≤ P.maxBuffer) :
    n / 3 * 65804 < 2 ^ Config.optNumW := by
  obtain ⟨-, -, -, hmax, -⟩ := hP
  exact (Nat.mul_le_mul_right _ (Nat.div_le_div_right hn)).trans_lt hmax

theorem parseDatagram_ok_wf {P : Config.Sizes} (hP : P.admissible) {m : Memory} {n : Nat} (hn : n ≤ P.maxBuffer)
    {msg : Message} (h : parseDatagram m n = .ok msg) : msg.wf P := by
  have hr := parseDatagram_result (m := m) hn
  rw [h] at hr
  cases hr with
  | ok hn' ho hpay => exact ho.message_wf hP hn' hpay

theorem exec_parse_eq_ok {n : Word} {s u : State} (h : exec (.parse n) s = .next u) (hu : u.status = 0x00) :
    u.dbuf = s.dbuf ∧ u.msg.wf ∧ FitWire 0 u.msg.opt ∧ s.dbuf.readBytes 0 n.toNat = u.msg.image := by
  obtain ⟨hn, hparse, hend⟩ := execParse_eq_ok (P := Config.hardware) h hu
  obtain ⟨-, hfit, himage⟩ := parseDatagram_ok_image hparse (numbers_fit hardware_admissible hn)
  exact ⟨by rw [hend, State.parseOk_dbuf], parseDatagram_ok_wf hardware_admissible hn hparse, hfit, himage⟩

/-- Settles O38: the datagram is the image of the message, in which the options stand behind the token, sorted. -/
theorem parsedOptionsAreInOrder : Obligations.ParsedOptionsAreInOrder := by
  intro n s u h hu
  obtain ⟨-, hwf, hfit, himage⟩ := exec_parse_eq_ok h hu
  have hlen : u.msg.image.length = n.toNat := by rw [← himage, Memory.readBytes_length]
  obtain ⟨-, hsorted, -⟩ := fitWire_iff.mp hfit
  refine ⟨?_, hsorted, hfit.stableSort_eq⟩
  have hs : s.dbuf.Shows n.toNat 0 u.msg.image :=
    Memory.shows_of_readBytes (himage.trans (List.take_of_length_le hlen.le).symm)
  obtain ⟨-, hrest⟩ := shows_behind_header hwf hs
  rw [hfit.stableSort_eq, Memory.shows_append] at hrest
  obtain ⟨hopts, -⟩ := hrest
  refine hopts.readBytes ?_
  rw [← hlen, Message.image_length_eq hwf.1, hfit.stableSort_eq]
  exact Nat.le_add_right _ _

/-- What a parse of `n` bytes takes of the option table, the value store and the option numbers (R134). -/
theorem execParse_ok_bounds {P : Config.Sizes} (hP : P.admissible) {n : Word} {s u : State}
    (h : execParse n s P = .next u) (hu : u.status = 0x00) :
    n.toNat ≤ P.maxBuffer ∧ u.msg.opt.length ≤ n.toNat - 4 ∧ u.msg.storeUse ≤ n.toNat - 5 ∧
      (∀ e ∈ u.msg.opt, e.num.toNat ≤ n.toNat / 3 * 65804 ∧ e.val.length ≤ 65804) ∧
      u.msg.opt.Pairwise (fun a b => a.num.toNat ≤ b.num.toNat) := by
  obtain ⟨hn, hparse, -⟩ := execParse_eq_ok h hu
  obtain ⟨htkl, hfit, himage⟩ := parseDatagram_ok_image hparse (numbers_fit hP hn)
  obtain ⟨hall, hsorted, -⟩ := fitWire_iff.mp hfit
  have hlen : n.toNat = 4 + u.msg.tkl.toNat + (optionsImage 0 u.msg.opt).length + (payloadImage u.msg.pay).length := by
    rw [← hfit.stableSort_eq, ← Message.image_length_eq htkl, ← himage, Memory.readBytes_length]
  have hroom := length_add_optBytes_le 0 u.msg.opt
  have hlast := hfit.three_mul_lastNum_le
  obtain ⟨-, hle⟩ := hfit.le_lastNum
  have h0 : (0 : OptNum).toNat = 0 := rfl
  rw [h0] at hlast
  rw [payloadImage_length] at hlen
  refine ⟨hn, by omega, ?_, fun e he => ⟨?_, (hall e he).2⟩, hsorted⟩
  · rw [Message.storeUse]
    rcases Nat.eq_zero_or_pos u.msg.opt.length with hnone | hsome
    · rw [List.length_eq_zero_iff.mp hnone, optBytes_nil]
      split_ifs at hlen <;> omega
    · split_ifs at hlen <;> omega
  · have := hle e he
    omega

/-- Settles O39: every option takes a byte besides its value, a payload its marker, and 65804 of a number three
bytes. -/
theorem parseNeverOverflows : Obligations.ParseNeverOverflows := by
  refine ⟨fun n s u h hu => ?_, fun P hP n s u h hu => ?_⟩
  · exact (execParse_ok_bounds hardware_admissible h hu).2
  · obtain ⟨hn, hcount, hstore, hrest⟩ := execParse_ok_bounds hP h hu
    obtain ⟨-, hopt, hvstore, -, -⟩ := hP
    exact ⟨hn, by omega, by omega, hrest⟩

/-! ### `SERIALIZE` of what was parsed (R135 b) -/

/-- Where every check of `SERIALIZE` passes, the image is written at offset 0 and its length returned (R157, R158). -/
theorem execSerialize_of_fits {cap : Word} {s : State} {P : Config.Sizes} (hcap : cap.toNat ≤ P.maxBuffer)
    (htkl : s.msg.tkl.toNat ≤ 8) (hval : ∀ e ∈ s.msg.opt, e.val.length ≤ Config.maxOptValue)
    (hgap : gapsFit 0 (stableSort s.msg.opt) = true) (hlen : s.msg.encLen ≤ cap.toNat) :
    execSerialize cap s P =
      .next ({ s with dbuf := s.dbuf.writeBytes 0 s.msg.image }.returnOk (lenWord s.msg.image.length) 0 []) := by
  have hvals : ¬ (stableSort s.msg.opt).any (fun e => decide (Config.maxOptValue < e.val.length)) = true := by
    simpa [mem_stableSort] using hval
  have hwrite := (wrBytes_eq_some (m := s.dbuf) (c := ⟨0, cap.toNat⟩) (s := s.msg.image)).mpr
    ⟨by rw [Message.image_length htkl]; simpa using hlen, rfl, rfl⟩
  rw [execSerialize, if_neg (Nat.not_lt.mpr hcap), Config.maxTkl, if_neg (Nat.not_lt.mpr htkl), if_neg hvals, hgap,
    if_neg Bool.noConfusion, if_neg (Nat.not_lt.mpr hlen), hwrite]
  simp only [Nat.zero_add]

theorem Memory.read_writeBytes_readBytes (m : Memory) (a k x : Nat) :
    (m.writeBytes a (m.readBytes a k)).read x = m.read x := by
  rw [Memory.read_writeBytes]
  split_ifs with h
  · rw [Memory.readBytes_getElem, Nat.add_sub_cancel' h.1]
  · rfl

/-- Settles O36: the datagram parsed is the image of the message, and `SERIALIZE` writes it over itself. -/
theorem serializeAfterParse : Obligations.SerializeAfterParse := by
  intro n cap s u h hu hle hcap
  obtain ⟨hbuf, hwf, -, himage⟩ := exec_parse_eq_ok h hu
  have hlen : u.msg.image.length = n.toNat := by rw [← himage, Memory.readBytes_length]
  have hword : lenWord u.msg.image.length = n := by rw [hlen, lenWord, BitVec.ofNat_toNat, BitVec.setWidth_eq]
  obtain ⟨htkl, -, -, hval, -, hgap⟩ := hwf
  refine ⟨_, execSerialize_of_fits hcap htkl hval hgap ?_, ?_, fun a => ?_⟩
  · rwa [← Message.image_length htkl, hlen]
  · rw [hword]
    exact ⟨rfl, rfl, rfl, rfl⟩
  · rw [State.returnOk_dbuf, hbuf, ← himage]
    exact Memory.read_writeBytes_readBytes _ _ _ _

end Sys2Proof.Machine
end

section
/-! SUPPORT. `SERIALIZE` clause by clause (41_serialize R154 to R161): the sort is stable, the check of the deltas is the
gap property, each check of R237 has its own outcome, and the outcome is a function of the operand and the message. -/

namespace Sys2Proof.Machine

/-! ### The sort (R154) -/

/-- The entries of one number are sorted as they stand. -/
theorem filter_num_pairwise (opt : List OptEntry) (x : OptNum) :
    (opt.filter (fun e => e.num = x)).Pairwise (fun a b => a.num.toNat ≤ b.num.toNat) := by
  rw [List.pairwise_filter]
  refine List.pairwise_of_forall fun a b ha hb => ?_
  rw [of_decide_eq_true ha, of_decide_eq_true hb]

/-- Settles O48: the entries of one number are sorted as they stand, so they are a sublist of the sorted table, which
holds no others of that number. -/
theorem stableSortIsStable : Obligations.StableSortIsStable := by
  intro opt
  refine ⟨stableSort_perm opt, stableSort_sorted opt, fun x => ?_⟩
  have hsub : (opt.filter (fun e => e.num = x)).Sublist (stableSort opt) :=
    List.sublist_insertionSort (filter_num_pairwise opt x) List.filter_sublist
  have hfilter := hsub.filter (fun e => e.num = x)
  rw [List.filter_filter] at hfilter
  simp only [Bool.and_self] at hfilter
  exact (hfilter.eq_of_length ((stableSort_perm opt).filter _).length_eq.symm).symm

/-! ### The gap property as it is checked (R39, R160) -/

/-- The check of the deltas, gap by gap. -/
theorem gapsFit_iff_getElem {p : Nat} {opt : List OptEntry} :
    gapsFit p opt = true ↔
      ∀ j (h : j < opt.length),
        opt[j].num.toNat - (if j = 0 then p else (opt[j - 1]'(by omega)).num.toNat) ≤ 65804 := by
  induction opt generalizing p with
  | nil => simp [gapsFit]
  | cons e rest ih =>
    rw [gapsFit, Bool.and_eq_true, decide_eq_true_eq, ih]
    constructor
    · rintro ⟨hgap, hrest⟩ j hj
      match j with
      | 0 => exact hgap
      | 1 => exact hrest 0 (Nat.lt_of_succ_lt_succ hj)
      | j + 2 => exact hrest (j + 1) (Nat.lt_of_succ_lt_succ hj)
    · intro h
      refine ⟨h 0 (Nat.succ_pos _), fun j hj => ?_⟩
      match j with
      | 0 => exact h 1 (Nat.succ_lt_succ hj)
      | j + 1 => exact h (j + 2) (Nat.succ_lt_succ hj)

theorem Message.gapProperty_iff {m : Message} : m.gapProperty ↔ gapsFit 0 (stableSort m.opt) = true :=
  gapsFit_iff_getElem.symm

/-! ### The checks in their order (R157, R237) -/

theorem any_value_too_long_iff {opt : List OptEntry} :
    (stableSort opt).any (fun e => decide (Config.maxOptValue < e.val.length)) = true ↔
      ∃ e ∈ opt, Config.maxOptValue < e.val.length := by
  simp [mem_stableSort]

theorem not_any_value_too_long {opt : List OptEntry} (h : ∀ e ∈ opt, e.val.length ≤ Config.maxOptValue) :
    ¬ (stableSort opt).any (fun e => decide (Config.maxOptValue < e.val.length)) = true :=
  mt any_value_too_long_iff.mp fun ⟨e, he, hgt⟩ => Nat.not_lt.mpr (h e he) hgt

section
variable {cap : Word} {s : State} {P : Config.Sizes}

theorem execSerialize_of_cap_gt (h : P.maxBuffer < cap.toNat) :
    execSerialize cap s P = .next (s.raise .invalidArgument) := if_pos h

variable (hcap : cap.toNat ≤ P.maxBuffer)
include hcap

theorem execSerialize_of_tkl_gt (h : 8 < s.msg.tkl.toNat) :
    execSerialize cap s P = .next (s.raise .invalidTokenLength) := by
  rw [execSerialize, if_neg (Nat.not_lt.mpr hcap), Config.maxTkl, if_pos h]

variable (htkl : s.msg.tkl.toNat ≤ 8)
include htkl

theorem execSerialize_of_value_gt (h : ∃ e ∈ s.msg.opt, Config.maxOptValue < e.val.length) :
    execSerialize cap s P = .next (s.raise .optionValueTooLong) := by
  rw [execSerialize, if_neg (Nat.not_lt.mpr hcap), Config.maxTkl, if_neg (Nat.not_lt.mpr htkl),
    if_pos (any_value_too_long_iff.mpr h)]

variable (hval : ∀ e ∈ s.msg.opt, e.val.length ≤ Config.maxOptValue)
include hval

theorem execSerialize_of_gap_gt (h : gapsFit 0 (stableSort s.msg.opt) = false) :
    execSerialize cap s P = .fault .invariantViolation := by
  rw [execSerialize, if_neg (Nat.not_lt.mpr hcap), Config.maxTkl, if_neg (Nat.not_lt.mpr htkl),
    if_neg (not_any_value_too_long hval), if_pos h]

theorem execSerialize_of_encLen_gt (hgap : gapsFit 0 (stableSort s.msg.opt) = true) (h : cap.toNat < s.msg.encLen) :
    execSerialize cap s P = .next (s.raise .bufferTooSmall) := by
  rw [execSerialize, if_neg (Nat.not_lt.mpr hcap), Config.maxTkl, if_neg (Nat.not_lt.mpr htkl),
    if_neg (not_any_value_too_long hval), hgap, if_neg Bool.noConfusion, if_pos h]

end

/-- An error changes nothing but the result registers and the response (R159, R236). -/
theorem serialize_endsInError {cap : Word} {s : State} {x : Status} (h : execSerialize cap s = .next (s.raise x)) :
    EndsInError (.serialize cap) s x.code :=
  ⟨_, h, ⟨rfl, rfl, rfl, rfl⟩, rfl, ⟨rfl, fun _ => rfl⟩, rfl⟩

/-- Settles O46: each clause is the first check that fails, and it raises its error. -/
theorem serializeErrors : Obligations.SerializeErrors := by
  intro cap s
  refine ⟨fun hcap => ?_, fun hcap htkl => ?_, fun hcap htkl hval => ?_, fun hcap htkl hval hgap hlen => ?_⟩
  · exact serialize_endsInError (execSerialize_of_cap_gt hcap)
  · exact serialize_endsInError (execSerialize_of_tkl_gt hcap htkl)
  · exact serialize_endsInError (execSerialize_of_value_gt hcap htkl hval)
  · exact serialize_endsInError (execSerialize_of_encLen_gt hcap htkl hval (Message.gapProperty_iff.mp hgap) hlen)

/-- Settles O47: the check of the deltas is the gap property. -/
theorem unencodableDeltaFaults : Obligations.UnencodableDeltaFaults := by
  intro cap s hcap htkl hval hgap
  exact execSerialize_of_gap_gt hcap htkl hval (Bool.eq_false_of_not_eq_true (mt Message.gapProperty_iff.mpr hgap))

/-! ### The image in bytes (R158; 30_encoding R81, R87) -/

theorem headerByte0_eq_ofNat (t : MsgType) (k : Nibble) :
    headerByte0 1 t k = BitVec.ofNat 8 (64 + 16 * t.toNat + k.toNat) := by
  revert t k
  decide

theorem midHi_eq_ofNat (m : MsgId) : midHi m = BitVec.ofNat 8 (m.toNat / 256) := by
  refine BitVec.eq_of_toNat_eq ?_
  rw [midHi, BitVec.extractLsb'_toNat, Nat.shiftRight_eq_div_pow, BitVec.toNat_ofNat]

theorem midLo_eq_ofNat (m : MsgId) : midLo m = BitVec.ofNat 8 (m.toNat % 256) := by
  refine BitVec.eq_of_toNat_eq ?_
  rw [midLo, BitVec.extractLsb'_toNat, Nat.shiftRight_zero, BitVec.toNat_ofNat, Nat.mod_mod]

theorem Message.headerImage_eq (m : Message) :
    m.headerImage =
      [BitVec.ofNat 8 (64 + 16 * m.mtype.toNat + m.tkl.toNat), m.code, BitVec.ofNat 8 (m.mid.toNat / 256),
        BitVec.ofNat 8 (m.mid.toNat % 256)] := by
  rw [Message.headerImage, Message.ver_eq, headerByte0_eq_ofNat, midHi_eq_ofNat, midLo_eq_ofNat]

theorem payloadImage_eq (pay : Bytes) : payloadImage pay = if pay = [] then [] else 0xFF :: pay := by
  split_ifs with h
  · rw [h, payloadImage_nil]
  · exact payloadImage_of_ne_nil h

theorem Message.four_le_encLen (m : Message) : 4 ≤ m.encLen := by
  unfold Message.encLen
  omega

/-- Settles O45: the image has the length `EncLen`, so it reads back whole there and nothing behind it is written. -/
theorem serializeWritesTheImage : Obligations.SerializeWritesTheImage := by
  intro cap s
  refine ⟨fun _ _ => rfl, fun hcap htkl hval hgap hlen => ?_⟩
  have himage := Message.image_length htkl
  refine ⟨_, execSerialize_of_fits hcap htkl hval (Message.gapProperty_iff.mp hgap) hlen, ?_, rfl, rfl,
    s.msg.four_le_encLen, ?_, fun x hx => ?_⟩
  · rw [himage]
    exact ⟨rfl, rfl, rfl, rfl⟩
  · rw [State.returnOk_dbuf, ← himage, Memory.readBytes_writeBytes, Message.image, Message.headerImage_eq,
      payloadImage_eq, Message.tokenBytes]
  · exact Memory.read_writeBytes_outside _ _ (by omega)

/-! ### Issued twice (R161) -/

/-- What `SERIALIZE` does is settled by the operand and the message: the fault, one error, or the image. -/
theorem execSerialize_of_msg (cap : Word) (m : Message) (P : Config.Sizes := Config.hardware) :
    (∀ s : State, s.msg = m → execSerialize cap s P = .fault .invariantViolation) ∨
    (∃ x, ∀ s : State, s.msg = m → execSerialize cap s P = .next (s.raise x)) ∨
    (∀ s : State, s.msg = m → execSerialize cap s P =
      .next ({ s with dbuf := s.dbuf.writeBytes 0 m.image }.returnOk (lenWord m.image.length) 0 [])) := by
  rcases Nat.lt_or_ge P.maxBuffer cap.toNat with hcap | hcap
  · exact .inr (.inl ⟨_, fun s _ => execSerialize_of_cap_gt hcap⟩)
  rcases Nat.lt_or_ge 8 m.tkl.toNat with htkl | htkl
  · exact .inr (.inl ⟨_, fun s hs => execSerialize_of_tkl_gt hcap (hs ▸ htkl)⟩)
  by_cases hval : ∃ e ∈ m.opt, Config.maxOptValue < e.val.length
  · exact .inr (.inl ⟨_, fun s hs => execSerialize_of_value_gt hcap (hs ▸ htkl) (hs ▸ hval)⟩)
  have hval : ∀ e ∈ m.opt, e.val.length ≤ Config.maxOptValue := by simpa using hval
  cases hgap : gapsFit 0 (stableSort m.opt) with
  | false => exact .inl fun s hs => execSerialize_of_gap_gt hcap (hs ▸ htkl) (hs ▸ hval) (hs ▸ hgap)
  | true =>
    rcases Nat.lt_or_ge cap.toNat m.encLen with hlen | hlen
    · exact .inr (.inl ⟨_, fun s hs =>
        execSerialize_of_encLen_gt hcap (hs ▸ htkl) (hs ▸ hval) (hs ▸ hgap) (hs ▸ hlen)⟩)
    · exact .inr (.inr fun s hs => hs ▸
        execSerialize_of_fits hcap (hs ▸ htkl) (hs ▸ hval) (hs ▸ hgap) (hs ▸ hlen))

theorem Memory.read_writeBytes_writeBytes (m : Memory) (a : Nat) (bs : Bytes) (x : Nat) :
    ((m.writeBytes a bs).writeBytes a bs).read x = (m.writeBytes a bs).read x := by
  have h := Memory.read_writeBytes_readBytes (m.writeBytes a bs) a bs.length x
  rwa [Memory.readBytes_writeBytes] at h

/-- Settles O49: the message is unchanged, so the second `SERIALIZE` ends in the same way, and it writes over the image
what stands there. -/
theorem serializeTwiceIsTheSame : Obligations.SerializeTwiceIsTheSame := by
  intro cap s u h
  rcases execSerialize_of_msg cap s.msg with hfault | ⟨x, hraise⟩ | hok
  · cases (hfault s rfl).symm.trans h
  · cases (hraise s rfl).symm.trans h
    exact ⟨rfl, _, hraise _ rfl, rfl, rfl, fun _ => rfl⟩
  · cases (hok s rfl).symm.trans h
    exact ⟨rfl, _, hok _ rfl, rfl, rfl, fun a => Memory.read_writeBytes_writeBytes _ _ _ a⟩

end Sys2Proof.Machine
end

section
/-! SUPPORT. `PARSE_TMID` and its laws with `PARSE` (42_partial_parse R170 to R172): its checks are the first two of
`PARSE`; behind them `PARSE` raises other errors only, and no element it decodes there changes the type or the message
id. -/

namespace Sys2Proof.Machine

/-! ### The checks of `PARSE_TMID` in their order (R170) -/

section
variable {n : Word} {s : State}

theorem exec_parseTmid_of_gt (h : 1024 < n.toNat) : exec (.parseTmid n) s = .next (s.raise .invalidArgument) :=
  if_pos h

theorem exec_parseTmid_of_short (h : n.toNat < 4) : exec (.parseTmid n) s = .next (s.raise .shortHeader) := by
  have hle : ¬ Config.hardware.maxBuffer < n.toNat := Nat.not_lt.mpr (h.le.trans (by decide))
  exact (if_neg hle).trans (if_pos h)

variable (h4 : 4 ≤ n.toNat) (hle : n.toNat ≤ 1024)
include h4 hle

theorem exec_parseTmid_of_version (hv : headerVer (s.dbuf.read 0) ≠ 1) :
    exec (.parseTmid n) s = .next (s.raise .badVersion) :=
  (if_neg (Nat.not_lt.mpr hle)).trans ((if_neg (Nat.not_lt.mpr h4)).trans (if_pos hv))

theorem exec_parseTmid_of_header (hv : headerVer (s.dbuf.read 0) = 1) :
    exec (.parseTmid n) s = .next (s.returnOk ((headerType (s.dbuf.read 0)).setWidth 32)
      ((midOf (s.dbuf.read 2) (s.dbuf.read 3)).setWidth 32) []) :=
  (if_neg (Nat.not_lt.mpr hle)).trans ((if_neg (Nat.not_lt.mpr h4)).trans (if_neg (not_not_intro hv)))

end

/-- A raised error changes nothing but the result registers and the response (R236). -/
theorem endsInError_of_raise {i : Instr} {s : State} {x : Status} (h : exec i s = .next (s.raise x)) :
    EndsInError i s x.code :=
  ⟨_, h, ⟨rfl, rfl, rfl, rfl⟩, rfl, ⟨rfl, fun _ => rfl⟩, rfl⟩

/-- `return` changes nothing but the result registers and the response (R235). -/
theorem endsOk_of_returnOk {i : Instr} {s : State} {r0 r1 : Word} {d : Bytes}
    (h : exec i s = .next (s.returnOk r0 r1 d)) : EndsOk i s r0 r1 d s.msg :=
  ⟨_, h, ⟨rfl, rfl, rfl, rfl⟩, rfl, ⟨rfl, fun _ => rfl⟩, rfl⟩

/-! ### The fields it returns as numbers (R81) -/

theorem headerType_toNat (b : Byte) : (headerType b).toNat = b.toNat / 16 % 4 := by
  revert b; decide

theorem midOf_toNat (b c : Byte) : (midOf b c).toNat = b.toNat * 256 + c.toNat := by
  rw [midOf, BitVec.toNat_append, ← Nat.shiftLeft_add_eq_or_of_lt c.isLt, Nat.shiftLeft_eq]

theorem headerType_setWidth_toNat (b : Byte) : ((headerType b).setWidth 32).toNat = (headerType b).toNat :=
  BitVec.toNat_setWidth_of_le (by decide)

theorem midOf_setWidth_toNat (b c : Byte) : ((midOf b c).setWidth 32).toNat = (midOf b c).toNat :=
  BitVec.toNat_setWidth_of_le (by decide)

/-- Settles O42: each clause is the first check that fails, or that none does; none of the ends writes message or
buffer. -/
theorem parseTmidResult : Obligations.ParseTmidResult := by
  intro n s
  simp only [ne_eq, ← headerVer_eq_one_iff]
  refine ⟨fun _ _ => rfl, fun hgt => ?_, fun hlt => ?_, fun h4 hle hv => ?_, fun h4 hle hv => ?_⟩
  · exact endsInError_of_raise (exec_parseTmid_of_gt hgt)
  · exact endsInError_of_raise (exec_parseTmid_of_short hlt)
  · exact endsInError_of_raise (exec_parseTmid_of_version h4 hle hv)
  · refine ⟨_, _, endsOk_of_returnOk (exec_parseTmid_of_header h4 hle hv), ?_, ?_⟩
    · rw [headerType_setWidth_toNat, headerType_toNat]
    · rw [midOf_setWidth_toNat, midOf_toNat]

/-! ### What `PARSE` can raise behind the version check (R123 to R127) -/

/-- The errors of the option loop (R124 to R127). -/
def optionErrors : List Status := [.badOptionDelta, .badOptionLength, .truncatedOption, .missingPayloadAfterMarker]

/-- The errors a parse can raise behind the two checks it shares with `PARSE_TMID` (R123 to R127). -/
def errorsBehindVersion : List Status := .badTokenLength :: .truncatedToken :: optionErrors

theorem code_ne_of_mem_errorsBehindVersion {x : Status} (h : x ∈ errorsBehindVersion) :
    x.code ≠ 0x00 ∧ x.code ≠ 0x01 ∧ x.code ≠ 0x02 := by
  revert x; decide

theorem eq_error_of_map_eq_error {ε α β : Type} {f : α → β} {r : Except ε α} {x : ε} (h : r.map f = .error x) :
    r = .error x := by
  cases r <;> cases h
  rfl

theorem optionElement_error_mem_optionErrors {dn ln : Nibble} {m : Memory} {o : OptLoop} {x : Status}
    (h : optionElement dn ln m o = .error x) : x ∈ optionErrors := by
  by_cases hd : dn = 15
  · rw [optionElement, if_pos hd] at h
    cases h; decide
  · by_cases hl : ln = 15
    · rw [optionElement, if_neg hd, if_pos hl] at h
      cases h; decide
    · rw [optionElement_error_eq hd hl h]
      decide

theorem markerElement_error_mem_optionErrors {m : Memory} {o : OptLoop} {x : Status}
    (h : markerElement m o = .error x) : x ∈ optionErrors := by
  unfold markerElement at h
  split_ifs at h
  cases h; decide

theorem optionTurn_eq_error {m : Memory} {o : OptLoop} {x : Status} (h : optionTurn m o = .error x) :
    markerElement m o = .error x ∨ ∃ dn ln, optionElement dn ln m o = .error x := by
  rcases optionTurn_cases m o with ⟨-, ht⟩ | ⟨-, ht⟩ <;> rw [ht] at h
  · exact .inl (eq_error_of_map_eq_error h)
  · exact .inr ⟨_, _, eq_error_of_map_eq_error h⟩

/-- An error the rest of a parse ends with was raised by one turn of the option loop. -/
theorem optionsFrom_eq_error {m : Memory} {o : OptLoop} {x : Status} (h : optionsFrom m o = .error x) :
    ∃ o', optionTurn m o' = .error x := by
  generalize hk : o.pos.lim - o.pos.cur = k
  induction k using Nat.strongRecOn generalizing o with
  | _ k ih =>
    rw [optionsFrom_eq] at h
    by_cases hc : o.pos.cur < o.pos.lim
    · rw [if_pos hc] at h
      cases ht : optionTurn m o with
      | error y =>
        rw [ht] at h
        cases h
        exact ⟨o, ht⟩
      | ok r =>
        cases r with
        | done msg => rw [ht] at h; cases h
        | more o' =>
          obtain ⟨hadv, hle, hlim⟩ := optionTurn_advances ht
          exact ih _ (by omega) (o := o') (by simpa [ht] using h) rfl
    · rw [if_neg hc] at h
      cases h

theorem optionsFrom_error_mem_optionErrors {m : Memory} {o : OptLoop} {x : Status} (h : optionsFrom m o = .error x) :
    x ∈ optionErrors := by
  obtain ⟨o', ht⟩ := optionsFrom_eq_error h
  rcases optionTurn_eq_error ht with hm | ⟨dn, ln, he⟩
  · exact markerElement_error_mem_optionErrors hm
  · exact optionElement_error_mem_optionErrors he

/-- The type and the message id of a delivered message are those the header gave: no option element changes them. -/
theorem optionsFrom_ok_header {m : Memory} {o : OptLoop} {msg : Message} (h : optionsFrom m o = .ok msg) :
    msg.mtype = o.mtype ∧ msg.mid = o.mid := by
  have hkeeps : ∀ dn ln (o₁ o₂ : OptLoop), o₁.mtype = o.mtype ∧ o₁.mid = o.mid → optionElement dn ln m o₁ = .ok o₂ →
      o₂.mtype = o.mtype ∧ o₂.mid = o.mid := by
    intro dn ln o₁ o₂ h₁ he
    obtain ⟨-, -, _, _, _, _, -, -, -, rfl⟩ := optionElement_eq_ok he
    exact h₁
  rcases optionsFrom_cases hkeeps ⟨rfl, rfl⟩ with ⟨x, -, hx⟩ | ⟨o', pay, ho', hmsg, -⟩
  · cases hx.symm.trans h
  · cases hmsg.symm.trans h
    exact ho'

/-- Behind the two checks it shares with `PARSE_TMID`, a parse raises an error of its own or delivers a message with the
type and the message id that stand in the header. -/
theorem parseDatagram_behind_version {m : Memory} {n : Nat} (h4 : 4 ≤ n) (hv : headerVer (m.read 0) = 1) :
    (∃ x ∈ errorsBehindVersion, parseDatagram m n = .error x) ∨
    ∃ msg, parseDatagram m n = .ok msg ∧ msg.mtype = headerType (m.read 0) ∧
      msg.mid = midOf (m.read 2) (m.read 3) := by
  cases hr : readHeader m n with
  | error x =>
    refine .inl ⟨x, ?_, parseDatagram_of_readHeader_error hr⟩
    rw [readHeader_of_header h4 hv] at hr
    rcases headerElement_eq_error.mp hr with ⟨-, rfl⟩ | ⟨-, -, rfl⟩ <;> decide
  | ok o =>
    rw [parseDatagram_of_readHeader_ok hr]
    obtain ⟨-, -, rfl⟩ := headerElement_eq_ok.mp (readHeader_eq_ok hr)
    cases ho : optionsFrom m _ with
    | error x => exact .inl ⟨x, .tail _ (.tail _ (optionsFrom_error_mem_optionErrors ho)), rfl⟩
    | ok msg => exact .inr ⟨msg, rfl, optionsFrom_ok_header ho⟩

/-! ### The two commands on one buffer (R172) -/

/-- Settles O43, by the first check that fails: up to the version check the two commands raise the same error; behind it
`PARSE_TMID` ends with `OK`, and `PARSE` with an error of its own or the message of that header. -/
theorem parseTmidAgreesWithParse : Obligations.ParseTmidAgreesWithParse := by
  intro n s
  simp only [← headerVer_eq_one_iff]
  rcases Nat.lt_or_ge 1024 n.toNat with hgt | hle
  · exact ⟨_, _, exec_parse_of_gt hgt s, exec_parseTmid_of_gt hgt, fun _ hle => absurd hle (Nat.not_le_of_lt hgt),
      nofun, fun _ => rfl, fun h => absurd (show (0x20 : Byte) ∈ _ from h) (by decide)⟩
  rcases Nat.lt_or_ge n.toNat 4 with hlt | h4
  · have hparse := parseDatagram_of_readHeader_error (readHeader_of_short (m := s.dbuf) hlt)
    refine ⟨_, _, exec_parse_of_le hle s, exec_parseTmid_of_short hlt, fun h => absurd h (Nat.not_le_of_lt hlt), ?_⟩
    rw [hparse]
    exact ⟨nofun, fun _ => rfl, fun h => absurd (show (0x01 : Byte) ∈ _ from h) (by decide)⟩
  by_cases hv : headerVer (s.dbuf.read 0) = 1
  · refine ⟨_, _, exec_parse_of_le hle s, exec_parseTmid_of_header h4 hle hv, fun _ _ _ => rfl, ?_⟩
    rcases parseDatagram_behind_version h4 hv with ⟨x, hx, hparse⟩ | ⟨msg, hparse, htype, hmid⟩
    · obtain ⟨hok, hshort, hversion⟩ := code_ne_of_mem_errorsBehindVersion hx
      rw [hparse]
      exact ⟨fun h => absurd h hok, fun h => absurd h (not_or.mpr ⟨hshort, hversion⟩), fun _ => rfl⟩
    · rw [hparse]
      refine ⟨fun _ => ⟨rfl, ?_, ?_⟩, nofun, fun _ => rfl⟩
      · exact (headerType_setWidth_toNat _).trans (congrArg _ htype.symm)
      · exact (midOf_setWidth_toNat _ _).trans (congrArg _ hmid.symm)
  · have hparse := parseDatagram_of_readHeader_error (readHeader_of_version h4 hv)
    refine ⟨_, _, exec_parse_of_le hle s, exec_parseTmid_of_version h4 hle hv, fun _ _ h1 => absurd h1 hv, ?_⟩
    rw [hparse]
    exact ⟨nofun, fun _ => rfl, fun h => absurd (show (0x02 : Byte) ∈ _ from h) (by decide)⟩

end Sys2Proof.Machine
end

section
/-! SUPPORT. The message access commands (43_helpers R180 to R196): how a setter and a getter end, said once; then each
command, with the field it writes or answers as a number; and the two laws of a setter followed by its getter. -/

namespace Sys2Proof.Machine

/-! ### How a setter and a getter end (R180) -/

section
variable {i : Instr} {s : State} {ok : Bool} {m : Message}

/-- The message is put in place where the checks of a setter pass, and nothing else changes (R180 b). -/
theorem endsOk_of_setter (hi : exec i s = setter ok m s) (hok : ok = true) : EndsOk i s 0 0 [] m :=
  have hset : setter ok m s = .next ({ s with msg := m }.returnOk 0 0 []) := if_pos hok
  ⟨_, hi.trans hset, ⟨rfl, rfl, rfl, rfl⟩, rfl, ⟨rfl, fun _ => rfl⟩, rfl⟩

/-- A setter one of whose checks fails raises `InvalidArgument` (R180 a). -/
theorem endsInError_of_setter (hi : exec i s = setter ok m s) (hok : ¬ ok = true) : EndsInError i s 0x20 :=
  endsInError_of_raise (x := .invalidArgument) (hi.trans (if_neg hok))

/-- The message after a setter that ended with `OK` is the one it puts in place. -/
theorem msg_eq_of_setter_ok {t : State} (h : setter ok m s = .next t) (ht : t.status = 0x00) : t.msg = m := by
  rw [setter_eq] at h
  cases h
  cases ok with
  | true => rfl
  | false => exact absurd (show (0x20 : Byte) = 0x00 from ht) (by decide)

/-- A getter changes nothing but the result registers and the response (R180 c). -/
theorem endsOk_of_getter {r0 r1 : Word} {d : Bytes} (hi : exec i s = getter r0 r1 d s) : EndsOk i s r0 r1 d s.msg :=
  endsOk_of_returnOk (hi.trans (getter_eq r0 r1 d s))

end

/-! ### The whole message, the type, the message id and the code (R181 to R186, R189 to R191) -/

/-- Settles O14: `MSG_CLEAR` is a setter with no check. -/
theorem msgClearGivesClearedMessage : Obligations.MsgClearGivesClearedMessage := fun _ =>
  ⟨fun _ _ _ => rfl, Message.cleared, endsOk_of_setter rfl rfl, cleared_isCleared⟩

theorem isEmpty_endsOk (s : State) : EndsOk .isEmpty s (if s.msg.code = 0x00 then 1 else 0) 0 [] s.msg :=
  endsOk_of_getter rfl

/-- Settles O15, by the two values of the test on the code. -/
theorem isEmptyTestsTheCodeAlone : Obligations.IsEmptyTestsTheCodeAlone := by
  intro s
  have hends := isEmpty_endsOk s
  refine ⟨fun _ _ _ => rfl, fun hempty => ?_, fun hcode => ?_⟩
  · rwa [if_pos hempty] at hends
  · rwa [if_neg hcode] at hends

/-- Settles O16: an operand up to 3 fits the two bits of the type. -/
theorem setTypeResult : Obligations.SetTypeResult := by
  intro t s
  refine ⟨fun _ _ => rfl, fun hgt => ?_, fun hle => ⟨_, endsOk_of_setter rfl (decide_eq_true hle), ?_, rfl⟩⟩
  · exact endsInError_of_setter rfl (mt of_decide_eq_true (Nat.not_le_of_lt hgt))
  · exact (BitVec.toNat_setWidth _ _).trans (Nat.mod_eq_of_lt (Nat.lt_succ_of_le hle))

/-- Settles O17: an operand up to `0xFFFF` fits the 16 bits of the message id. -/
theorem setMidResult : Obligations.SetMidResult := by
  intro v s
  refine ⟨fun _ _ => rfl, fun hgt => ?_, fun hle => ⟨_, endsOk_of_setter rfl (decide_eq_true hle), ?_, rfl⟩⟩
  · exact endsInError_of_setter rfl (mt of_decide_eq_true (Nat.not_le_of_lt hgt))
  · exact (BitVec.toNat_setWidth _ _).trans (Nat.mod_eq_of_lt (Nat.lt_succ_of_le hle))

/-- Settles O18: zero-extended to a word, a field keeps its value. -/
theorem typeAndMidGetters : Obligations.TypeAndMidGetters := by
  intro s
  have htype : (s.msg.mtype.setWidth 32).toNat = s.msg.mtype.toNat := BitVec.toNat_setWidth_of_le (by decide)
  have hmid : (s.msg.mid.setWidth 32).toNat = s.msg.mid.toNat := BitVec.toNat_setWidth_of_le (by decide)
  exact ⟨fun _ _ _ => rfl, fun _ _ _ => rfl,
    ⟨_, htype, htype.trans_le (Nat.le_of_lt_succ s.msg.mtype.isLt), endsOk_of_getter rfl⟩,
    ⟨_, hmid, endsOk_of_getter rfl⟩⟩

theorem codeClass_toNat (c : Byte) : (codeClass c).toNat = c.toNat / 32 := by
  revert c; decide

theorem codeDetail_toNat (c : Byte) : (codeDetail c).toNat = c.toNat % 32 := by
  revert c; decide

/-- Settles O22: the two fields of a code are its quotient and its remainder by 32. -/
theorem codeGetters : Obligations.CodeGetters := by
  intro s
  have hclass : ((codeClass s.msg.code).setWidth 32).toNat = (codeClass s.msg.code).toNat :=
    BitVec.toNat_setWidth_of_le (by decide)
  have hdetail : ((codeDetail s.msg.code).setWidth 32).toNat = (codeDetail s.msg.code).toNat :=
    BitVec.toNat_setWidth_of_le (by decide)
  exact ⟨fun _ _ _ => rfl, fun _ _ _ => rfl,
    ⟨_, hclass.trans (codeClass_toNat _), hclass.trans_le (Nat.le_of_lt_succ (codeClass _).isLt),
      endsOk_of_getter rfl⟩,
    ⟨_, hdetail.trans (codeDetail_toNat _), hdetail.trans_le (Nat.le_of_lt_succ (codeDetail _).isLt),
      endsOk_of_getter rfl⟩⟩

/-- A detail below 32 does not touch the bits of the class, so the disjunction is a sum (R191). -/
theorem codeOf_toNat {k d : Word} (hk : k.toNat ≤ 7) (hd : d.toNat ≤ 31) :
    (codeOf k d).toNat = 32 * k.toNat + d.toNat := by
  have hshift : (k <<< 5).toNat = k.toNat <<< 5 := by
    rw [BitVec.toNat_shiftLeft, Nat.shiftLeft_eq]
    omega
  have hsum : (k <<< 5 ||| d).toNat = 32 * k.toNat + d.toNat := by
    rw [BitVec.toNat_or, hshift, ← Nat.shiftLeft_add_eq_or_of_lt (Nat.lt_succ_of_le hd), Nat.shiftLeft_eq]
    omega
  rw [codeOf, BitVec.toNat_setWidth, hsum]
  omega

/-- Settles O23: the check is the conjunction of the two bounds. -/
theorem setCodeResult : Obligations.SetCodeResult := by
  intro k d s
  refine ⟨fun _ => rfl, fun hgt => endsInError_of_setter rfl fun hok => ?_, fun hk hd =>
    ⟨_, endsOk_of_setter rfl ?_, codeOf_toNat hk hd, rfl⟩⟩
  · simp only [Bool.and_eq_true, decide_eq_true_eq] at hok
    omega
  · rw [decide_eq_true hk, decide_eq_true hd, Bool.and_self]

/-! ### The token (R187, R188) -/

/-- A legal token length fits the nibble that holds it. -/
theorem tkl_ofNat_toNat {n : Nat} (h : n ≤ 8) : (BitVec.ofNat 4 n).toNat = n := by
  rw [BitVec.toNat_ofNat]
  omega

/-- Settles O19: the register is the token's bytes with zeros above them. -/
theorem setTokenResult : Obligations.SetTokenResult := by
  intro d s
  refine ⟨fun _ _ => rfl, fun hgt => ?_, fun hle =>
    ⟨_, endsOk_of_setter rfl (decide_eq_true hle), tkl_ofNat_toNat hle, fun j => ?_, rfl⟩⟩
  · exact endsInError_of_setter rfl (mt of_decide_eq_true (Nat.not_le_of_lt hgt))
  · split_ifs with hj
    · exact (tokenRegister_getElem d j.val j.isLt).trans (List.getD_eq_getElem d 0 hj)
    · exact tokenRegister_zero_above d j (Nat.le_of_not_lt hj)

theorem Message.tokenBytes_getElem? {m : Message} {j : Fin 8} (h : j.val < m.tkl.toNat) :
    m.tokenBytes[j.val]? = some m.token[j] := by
  rw [Message.tokenBytes, List.getElem?_take_of_lt h]
  simp

theorem getToken_endsOk (s : State) : EndsOk .getToken s (s.msg.tkl.setWidth 32) 0 s.msg.tokenBytes s.msg :=
  endsOk_of_getter rfl

/-- Settles O21: the data is the register cut at the token length. -/
theorem getTokenResult : Obligations.GetTokenResult := fun s htkl =>
  ⟨fun _ _ _ => rfl, s.msg.tkl.setWidth 32, s.msg.tokenBytes, getToken_endsOk s,
    BitVec.toNat_setWidth_of_le (by decide), Message.tokenBytes_length htkl,
    fun _ hj => Message.tokenBytes_getElem? hj⟩

theorem fields_of_setToken {d : Bytes} {s t : State} (hlen : d.length ≤ 8) (h : exec (.setToken d) s = .next t) :
    t.msg.tkl = BitVec.ofNat 4 d.length ∧ t.msg.token = tokenRegister d := by
  have hset : exec (.setToken d) s = .next ({ s with
      msg := { s.msg with tkl := BitVec.ofNat 4 d.length, token := tokenRegister d } }.returnOk 0 0 []) :=
    if_pos (decide_eq_true hlen)
  cases hset.symm.trans h
  exact ⟨rfl, rfl⟩

/-- Settles O20: the register cut at the length it was set with is the token it was set to. -/
theorem setTokenThenGetToken : Obligations.SetTokenThenGetToken := by
  intro d s t hlen hset
  obtain ⟨htkl, htoken⟩ := fields_of_setToken hlen hset
  have hword : t.msg.tkl.setWidth 32 = BitVec.ofNat 32 d.length := by
    rw [← BitVec.ofNat_toNat, htkl, tkl_ofNat_toNat hlen]
  have hbytes : t.msg.tokenBytes = d := by
    rw [Message.tokenBytes, htkl, htoken, tkl_ofNat_toNat hlen, tokenRegister_take d hlen]
  have hends := getToken_endsOk t
  rwa [hword, hbytes] at hends

/-! ### The option table and the payload (R192 to R196) -/

/-- Settles O24: the check is the conjunction of the four. -/
theorem addOptionResult : Obligations.AddOptionResult := by
  intro x d s
  refine ⟨fun _ => rfl, fun hbad => endsInError_of_setter rfl fun hok => ?_, fun hx hd hcount hstore =>
    endsOk_of_setter rfl ?_⟩
  · simp only [Bool.and_eq_true, decide_eq_true_eq] at hok
    obtain ⟨⟨⟨hx, hd⟩, hcount⟩, hstore⟩ := hok
    rcases hbad with hgt | hgt | hfull | hgt
    · exact Nat.not_le_of_lt hgt hx
    · exact Nat.not_le_of_lt hgt hd
    · exact hcount hfull
    · exact Nat.not_le_of_lt hgt hstore
  · simp only [Bool.and_eq_true, decide_eq_true_eq]
    exact ⟨⟨⟨hx, hd⟩, hcount⟩, hstore⟩

theorem exec_optGet_of_getElem? {i : Word} {s : State} {e : OptEntry} (h : s.msg.opt[i.toNat]? = some e) :
    exec (.optGet i) s = .next (s.returnOk e.num (lenWord e.val.length) e.val) := by
  obtain ⟨hlt, rfl⟩ := List.getElem?_eq_some_iff.mp h
  rcases execOptGet_cases i s with ⟨hle, -⟩ | ⟨_, he⟩
  · exact absurd hlt (Nat.not_lt_of_le hle)
  · rwa [optNumWord_eq] at he

theorem exec_optGet_of_length_le {i : Word} {s : State} (h : s.msg.opt.length ≤ i.toNat) :
    exec (.optGet i) s = .next (s.raise .invalidArgument) := by
  rcases execOptGet_cases i s with ⟨-, he⟩ | ⟨hlt, -⟩
  · exact he
  · exact absurd hlt (Nat.not_lt_of_le h)

/-- Settles O25, by whether the table has an entry at the index. -/
theorem optGetResult : Obligations.OptGetResult := fun _ _ =>
  ⟨fun _ _ => rfl, fun hle => endsInError_of_raise (exec_optGet_of_length_le hle),
    fun hlt => endsOk_of_returnOk (exec_optGet_of_getElem? (List.getElem?_eq_getElem hlt))⟩

theorem opt_of_addOption_ok {x : Word} {d : Bytes} {s t : State} (h : exec (.addOption x d) s = .next t)
    (ht : t.status = 0x00) : t.msg.opt = s.msg.opt ++ [{ num := x, val := d }] := by
  have hmsg : t.msg = { s.msg with opt := s.msg.opt ++ [{ num := optNumOfWord x, val := d }] } :=
    msg_eq_of_setter_ok h ht
  rw [hmsg, optNumOfWord_eq]

/-- Settles O26: the entry stands behind the old table, whose own indexes it leaves as they were. -/
theorem addOptionThenOptGet : Obligations.AddOptionThenOptGet := by
  intro x d s t i hadd ht
  have hopt := opt_of_addOption_ok hadd ht
  refine ⟨fun hi => ?_, fun hi => ?_⟩
  · have hnew : t.msg.opt[i.toNat]? = some { num := x, val := d } := by
      rw [hopt, hi, List.getElem?_concat_length]
    exact endsOk_of_returnOk (exec_optGet_of_getElem? hnew)
  · have hold := List.getElem?_eq_getElem hi
    have hkept : t.msg.opt[i.toNat]? = some s.msg.opt[i.toNat] := by
      rw [hopt, List.getElem?_append_left hi, hold]
    exact ⟨_, _, exec_optGet_of_getElem? hold, exec_optGet_of_getElem? hkept, rfl, rfl⟩

/-- Settles O27: the check counts the option values and the new payload alone. -/
theorem setPayloadResult : Obligations.SetPayloadResult := fun _ _ =>
  ⟨fun _ _ => rfl, fun hgt => endsInError_of_setter rfl (mt of_decide_eq_true (Nat.not_le_of_lt hgt)),
    fun hle => endsOk_of_setter rfl (decide_eq_true hle)⟩

/-- Settles O28: both are getters. -/
theorem optCountAndPayloadGetters : Obligations.OptCountAndPayloadGetters := fun _ =>
  ⟨fun _ _ _ => rfl, fun _ _ _ => rfl, endsOk_of_getter rfl, endsOk_of_getter rfl⟩

end Sys2Proof.Machine
end

section
/-! SUPPORT. The datagram buffer access commands (44_buffer R220, R221): the model's range check against the two
clauses the statements split on, and how each command ends on either side of it. -/

namespace Sys2Proof.Machine

section
variable {a : Word} {k : Nat}

/-- The two checks of R220 and R221 passed. -/
theorem rangeFits_of_le (ha : a.toNat ≤ 1024) (hk : k ≤ 1024 - a.toNat) : rangeFits a k = true :=
  (rangeFits_iff a k).mpr ⟨ha, Nat.add_le_of_le_sub' ha hk⟩

/-- One of the two checks of R220 and R221 failed. -/
theorem not_rangeFits_of_outside (h : 1024 < a.toNat ∨ 1024 - a.toNat < k) : ¬ rangeFits a k = true := by
  intro hfit
  obtain ⟨ha, hsum⟩ := (rangeFits_iff a k).mp hfit
  rcases h with hgt | hgt
  · exact Nat.not_le_of_lt hgt ha
  · exact Nat.not_le_of_lt hgt (Nat.le_sub_of_add_le' hsum)

end

/-- The bytes of a range are the ones last written to it (R54, R55). -/
theorem Memory.read_writeBytes_inside (m : Memory) (a : Nat) (bs : Bytes) {j : Nat} (h : j < bs.length) :
    (m.writeBytes a bs).read (a + j) = bs[j] := by
  rw [Memory.read_writeBytes, dif_pos ⟨Nat.le_add_right a j, Nat.add_lt_add_left h a⟩]
  simp only [Nat.add_sub_cancel_left]

/-- Settles O29: the check comes before the first store, so a refused range is not written at all; a range that fits is
written byte by byte and nothing beside it. -/
theorem bufWrResult : Obligations.BufWrResult := by
  intro a d s
  refine ⟨fun _ => rfl, fun hout => ?_, fun ha hd => ?_⟩
  · exact endsInError_of_raise (x := .invalidArgument) (if_neg (not_rangeFits_of_outside hout))
  · refine ⟨_, if_pos (rangeFits_of_le ha hd), ⟨rfl, rfl, rfl, rfl⟩, rfl, rfl, fun j hj => ?_, fun x hx => ?_⟩
    · exact Memory.read_writeBytes_inside s.dbuf a.toNat d hj
    · exact Memory.read_writeBytes_outside s.dbuf d (by omega)

/-- Settles O30: the data is the range read byte by byte, and reading it changes no state. -/
theorem bufRdResult : Obligations.BufRdResult := by
  intro a k s
  refine ⟨fun _ => rfl, fun hout => ?_, fun ha hk => ⟨s.dbuf.readBytes a.toNat k.toNat, ?_, ?_, fun j hj => ?_⟩⟩
  · exact endsInError_of_raise (x := .invalidArgument) (if_neg (not_rangeFits_of_outside hout))
  · exact endsOk_of_returnOk (if_pos (rangeFits_of_le ha hk))
  · exact Memory.readBytes_length s.dbuf a.toNat k.toNat
  · exact Memory.readBytes_getElem s.dbuf a.toNat k.toNat j hj

end Sys2Proof.Machine
end

section
/-! SUPPORT. Exceptions (60_exceptions R233, R236): where the gap property holds every command answers a next state, so a
good state never stops; and of the ways an instruction can end, only a raised error has the status `InvalidArgument`. -/

namespace Sys2Proof.Machine

/-! ### No command stops (R233, 41_serialize R160) -/

/-- What the decoder reads from a command is one of the commands of R100. -/
theorem isCommand_of_decodeCommand {c : Command} {i : Instr} (h : decodeCommand c = .ok i) : i.isCommand = true := by
  unfold decodeCommand at h
  split at h <;> cases h <;> rfl

/-- The one stop of a command is the fault of `SERIALIZE` for a gap it cannot encode. -/
theorem exec_command_answers {i : Instr} {s : State} (hc : i.isCommand = true)
    (hgap : gapsFit 0 (stableSort s.msg.opt) = true) : ∃ t, exec i s = .next t := by
  have setterAnswers (ok : Bool) (m : Message) : ∃ t, setter ok m s = .next t := ⟨_, setter_eq ok m s⟩
  cases i with
  | msgClear => exact setterAnswers true .cleared
  | setType v => exact setterAnswers _ _
  | setMid v => exact setterAnswers _ _
  | setToken d => exact setterAnswers _ _
  | setCode k d => exact setterAnswers _ _
  | addOption x d => exact setterAnswers _ _
  | setPayload d => exact setterAnswers _ _
  | isEmpty | getType | getMid | getToken | getCodeClass | getCodeDetail | optCount | getPayload => exact ⟨_, rfl⟩
  | optGet k => rcases execOptGet_cases k s with ⟨-, h⟩ | ⟨_, h⟩ <;> exact ⟨_, h⟩
  | bufWr a d => exact ⟨_, execBufWr_eq a d s⟩
  | bufRd a k => exact ⟨_, execBufRd_eq a k s⟩
  | parse n => rcases execParse_cases n s with ⟨-, h⟩ | ⟨-, h⟩ <;> exact ⟨_, h⟩
  | parseTmid n =>
    obtain ⟨t, h, -⟩ := execParseTmid_cases n s
    exact ⟨t, h⟩
  | serialize cap =>
    rcases execSerialize_cases cap s with ⟨hfit, -⟩ | ⟨x, -, h⟩ | ⟨-, -, -, -, -, h⟩
    · exact absurd (hfit.symm.trans hgap) Bool.false_ne_true
    · exact ⟨_, h⟩
    · exact ⟨_, h⟩
  | wireHeader | wirePayloadMarker | wireReservedDelta | wireReservedLength | wireOption => cases hc

/-- A step runs a command, a `PARSE` by the name of one of its elements, or no instruction at all. -/
theorem step_answers {s : State} (hgap : gapsFit 0 (stableSort s.msg.opt) = true) : ∃ t, step s = .next t := by
  have element {n : Word} {k : Nat} {rest : List HostEvent} (hs : s.host = .element n k :: rest) :
      ∃ t, step s = .next t := by
    rw [parseIsTheRunOfItsElements n k s rest hs]
    exact exec_command_answers rfl hgap
  rcases fetch_cases s with ⟨-, hf⟩ | ⟨rest, -, hf⟩ | ⟨c, rest, -, -, hf⟩ | ⟨c, i, rest, -, hd, hf⟩ |
    ⟨n, k, rest, i, hs, -, -⟩ | ⟨n, k, rest, hs, -, -⟩
  · exact ⟨_, step_of_fetch_done hf⟩
  · exact ⟨_, step_of_fetch_done hf⟩
  · exact ⟨_, step_of_fetch_done hf⟩
  · rw [step_of_fetch_run hf]
    exact exec_command_answers (isCommand_of_decodeCommand hd) hgap
  · exact element hs
  · exact element hs

/-- Settles O56, by induction on the number of steps: a good state has the gap property, so its step answers, and the
state it answers is good again (`stepKeepsGood`). -/
theorem goodStatesNeverStop : Obligations.GoodStatesNeverStop := by
  obtain ⟨keepsGood, -⟩ := stepKeepsGood
  intro k
  induction k with
  | zero => exact fun s _ => ⟨s, rfl⟩
  | succ k ih =>
    intro s hs
    have ⟨⟨_, _, _, _, _, hgap⟩, _⟩ := hs
    obtain ⟨t, ht⟩ := step_answers hgap
    obtain ⟨u, hu⟩ := ih t (keepsGood s t hs ht)
    exact ⟨u, (run_succ_of_next ht).trans hu⟩

/-! ### `InvalidArgument` (R236, 43_helpers R180) -/

/-- An answer, a message set, a range written and a parsed message end with `OK`, and a parse error has a status of its
own: what ends with `InvalidArgument` was raised. -/
theorem Ending.eq_raise_of_invalidArgument {P : Config.Sizes} {i : Instr} {s t : State} (h : Ending P i s t)
    (ht : t.status = 0x20) : ∃ x, t = s.raise x := by
  have hok : (0 : Byte) ≠ 0x20 := by decide
  cases h with
  | raise hx => exact ⟨_, rfl⟩
  | answer r0 r1 d => exact absurd ht hok
  | set hm => exact absurd ht hok
  | write hi hd => exact absurd ht hok
  | parse hi hr =>
    cases hr with
    | @error x hx =>
      have h20 : x.code = 0x20 := ht
      exact absurd (h20 ▸ code_of_mem_parseErrors hx) (by decide)
    | ok hn ho hpay => exact absurd ht hok

/-- Settles O59: `InvalidArgument` is raised, and raising an error leaves the message, the buffer and the host's list
as they stand. -/
theorem invalidArgumentChangesNothing : Obligations.InvalidArgumentChangesNothing := by
  intro i s t _ h ht
  obtain ⟨x, rfl⟩ := (exec_ending h).eq_raise_of_invalidArgument ht
  exact ⟨rfl, ⟨rfl, fun _ => rfl⟩, rfl⟩

end Sys2Proof.Machine
end

section
/-! SUPPORT. Steps and bits (30_encoding R81 to R101, 60_exceptions R233, R241, 70_reset R260 to R262): the decoder and the
encoder agree in both directions, a step runs what the decoder reads, and no step is refused. -/

namespace Sys2Proof.Machine

/-! ### Decoding what was encoded, and encoding what was decoded (R81 to R100) -/

theorem decode_encode : ∀ {i : Instr}, i.wellFormed = true → decode (encode i) = .ok i
  | .msgClear => Laws.RoundTrip.msgClear
  | .parse n => Laws.RoundTrip.parse n
  | .serialize cap => Laws.RoundTrip.serialize cap
  | .parseTmid n => Laws.RoundTrip.parseTmid n
  | .isEmpty => Laws.RoundTrip.isEmpty
  | .setType t => Laws.RoundTrip.setType t
  | .getType => Laws.RoundTrip.getType
  | .setMid m => Laws.RoundTrip.setMid m
  | .getMid => Laws.RoundTrip.getMid
  | .setToken d => Laws.RoundTrip.setToken d
  | .getToken => Laws.RoundTrip.getToken
  | .getCodeClass => Laws.RoundTrip.getCodeClass
  | .getCodeDetail => Laws.RoundTrip.getCodeDetail
  | .setCode k d => Laws.RoundTrip.setCode k d
  | .addOption x d => Laws.RoundTrip.addOption x d
  | .optCount => Laws.RoundTrip.optCount
  | .optGet i => Laws.RoundTrip.optGet i
  | .setPayload d => Laws.RoundTrip.setPayload d
  | .getPayload => Laws.RoundTrip.getPayload
  | .bufWr a d => Laws.RoundTrip.bufWr a d
  | .bufRd a k => Laws.RoundTrip.bufRd a k
  | .wireHeader t k code mid => Laws.RoundTrip.wireHeader t k code mid
  | .wirePayloadMarker => Laws.RoundTrip.wirePayloadMarker
  | .wireReservedDelta ln => Laws.RoundTrip.wireReservedDelta ln
  | .wireReservedLength dn => Laws.RoundTrip.wireReservedLength dn
  | .wireOption dn ln => Laws.RoundTrip.wireOption dn ln

/-- Every operand of a command is legal to present (70_reset R271). -/
theorem wellFormed_of_isCommand {i : Instr} (h : i.isCommand = true) : i.wellFormed = true := by
  cases i with
  | wireHeader | wirePayloadMarker | wireReservedDelta | wireReservedLength | wireOption => cases h
  | _ => rfl

/-- Encoding what a command decodes to keeps its opcode; only unused operands are lost. -/
theorem encode_of_decodeCommand {c : Command} {i : Instr} (h : decodeCommand c = .ok i) :
    ∃ c', encode i = .command c' ∧ c'.op = c.op := by
  unfold decodeCommand at h
  split at h
  case h_22 => cases h
  all_goals
    rename_i hop
    cases h
    exact ⟨_, rfl, BitVec.eq_of_toNat_eq hop.symm⟩

theorem encode_of_decodeHeader {b0 b1 b2 b3 : Byte} {i : Instr} (h : decodeHeader b0 b1 b2 b3 = .ok i) :
    i.wellFormed = true ∧ encode i = .header b0 b1 b2 b3 := by
  unfold decodeHeader at h
  split_ifs at h with hver
  cases h
  exact ⟨rfl, by rw [encode, headerByte0_fields hver, midHi_midOf, midLo_midOf]⟩

theorem eq_marker_of_nibbles {b : Byte} (hd : highNibble b = 15) (hl : lowNibble b = 15) : b = 0xFF := by
  rw [← optionByte_nibbles b]
  exact Laws.optionByte_eq_marker.mpr ⟨hd, hl⟩

/-- The four rows of R96 split the bytes, and each keeps both nibbles. -/
theorem encode_decodeOptionByte (b : Byte) :
    (decodeOptionByte b).wellFormed = true ∧ encode (decodeOptionByte b) = .optionPosition b := by
  have hb := optionByte_nibbles b
  unfold decodeOptionByte
  split_ifs with hmarker hd hl
  · exact ⟨rfl, by rw [encode, hmarker]⟩
  · have hl : lowNibble b ≠ 15 := fun hl => hmarker (eq_marker_of_nibbles hd hl)
    exact ⟨bne_iff_ne.mpr hl, by rw [encode, ← hd, hb]⟩
  · exact ⟨bne_iff_ne.mpr hd, by rw [encode, ← hl, hb]⟩
  · exact ⟨Bool.and_eq_true_iff.mpr ⟨bne_iff_ne.mpr hd, bne_iff_ne.mpr hl⟩, by rw [encode, hb]⟩

/-- Settles O3: the round trip constructor by constructor, and back by where the bits stand. -/
theorem decodeEncodeAgree : Obligations.DecodeEncodeAgree := by
  refine ⟨fun i => decode_encode, fun e i h => ?_⟩
  cases e with
  | command c =>
    have hwf := wellFormed_of_isCommand (isCommand_of_decodeCommand h)
    obtain ⟨c', henc, hop⟩ := encode_of_decodeCommand h
    have hback : decode (.command c') = .ok i := henc ▸ decode_encode hwf
    exact ⟨hwf, nofun, nofun, fun c hc => ⟨c', henc, by cases hc; exact hop, hback⟩⟩
  | header b0 b1 b2 b3 =>
    obtain ⟨hwf, henc⟩ := encode_of_decodeHeader h
    exact ⟨hwf, fun _ _ _ _ _ => henc, nofun, nofun⟩
  | optionPosition b =>
    cases h
    obtain ⟨hwf, henc⟩ := encode_decodeOptionByte b
    exact ⟨hwf, nofun, fun _ _ => henc, nofun⟩

/-- Settles O1, word by word. -/
theorem sampleWordsDecode : Obligations.SampleWordsDecode := by
  unfold Obligations.SampleWordsDecode
  decide

/-- Settles O2, row by row of R100's table. -/
theorem opcodesSelectCommands : Obligations.OpcodesSelectCommands := by
  intro a0 a1 d
  and_intros <;> rfl

theorem highNibble_eq_ofNat (b : Byte) : highNibble b = BitVec.ofNat 4 (b.toNat / 16) := by
  revert b; decide

theorem lowNibble_eq_ofNat (b : Byte) : lowNibble b = BitVec.ofNat 4 (b.toNat % 16) := by
  revert b; decide

theorem highNibble_eq_15_iff (b : Byte) : highNibble b = 15 ↔ b.toNat / 16 = 15 := by
  revert b; decide

theorem lowNibble_eq_15_iff (b : Byte) : lowNibble b = 15 ↔ b.toNat % 16 = 15 := by
  revert b; decide

/-- Settles O4: the tests of the decoder, made in their order, as tests of the byte's number. -/
theorem optionPositionBytes : Obligations.OptionPositionBytes := by
  intro b
  have hb := b.isLt
  have hmarker : b = 0xFF ↔ b.toNat = 0xFF := BitVec.toNat_inj.symm
  simp only [decodeOptionByte, hmarker, highNibble_eq_15_iff, lowNibble_eq_15_iff, ← highNibble_eq_ofNat,
    ← lowNibble_eq_ofNat]
  refine ⟨fun h => if_pos h, fun hge hle => ?_, fun hd hl => ?_, fun hd hl => ?_⟩
  · rw [if_neg (by omega), if_pos (by omega)]
  · rw [if_neg (by omega), if_neg (by omega), if_pos hl]
  · rw [if_neg (by omega), if_neg (by omega), if_neg (by omega)]

/-! ### What a step runs (R233, R241, R260) -/

/-- Settles O7: the fetch takes the command off the list and decodes it. -/
theorem stepRunsDecodedCommand : Obligations.StepRunsDecodedCommand := fun _ _ _ _ hs hi =>
  step_of_fetch_run (by simp only [fetch, hs, hi])

/-- Settles O10: the fetch finds nothing to take. -/
theorem idleBlockHoldsItsState : Obligations.IdleBlockHoldsItsState := fun _ hs =>
  step_of_fetch_done (by simp only [fetch, hs])

/-- Settles O12, field by field of the reset event. -/
theorem resetEventRestoresResetState : Obligations.ResetEventRestoresResetState := fun s rest hs =>
  ⟨{ s with host := rest }.afterReset, step_of_fetch_done (by simp only [fetch, hs]), cleared_isCleared, rfl, rfl, rfl,
    rfl, rfl, fun _ => rfl, rfl, fun _ => rfl⟩

/-- Settles O54: the cleared message is well formed, nothing is written, no response stands. -/
theorem resetIsGood : Obligations.ResetIsGood :=
  ⟨cleared_wf _, ⟨List.Pairwise.nil, nofun⟩, nofun, Status.code_mem_producedCodes (st := .ok) (by decide)⟩

/-- Where the host's next event is a `PARSE` before its header, a header row has a place to run in. -/
theorem atHeader_of_host {s : State} {n : Word} {rest : List HostEvent} (hs : s.host = .element n 0 :: rest)
    (h4 : 4 ≤ n.toNat) (hn : n.toNat ≤ 1024) : s.atHeader = some (n.toNat, { s with host := rest }) :=
  atHeader_eq_some.mpr ⟨n, rest, hs, h4, hn, rfl, rfl⟩

/-- Where the host's next event is a `PARSE` at an option position, an option row has a place to run in. -/
theorem atOption_of_host {s : State} {n : Word} {k : Nat} {rest : List HostEvent} {o : OptLoop}
    (hs : s.host = .element n (k + 1) :: rest) (hn : n.toNat ≤ 1024)
    (hb : beforeOption s.dbuf n.toNat k = some o) (hc : o.pos.cur < o.pos.lim) :
    s.atOption = some (o, { s with host := rest }) :=
  atOption_eq_some.mpr ⟨n, k, rest, hs, hn, hb, hc, rfl⟩

theorem atHeader_eq_none_of_host {s : State} {n : Word} {k : Nat} {rest : List HostEvent}
    (hs : s.host = .element n (k + 1) :: rest) : s.atHeader = none := by
  simp only [State.atHeader, hs]

/-- An event at an element the parse gets to is run as the row that stands there. -/
theorem step_of_elementRow {s : State} {n : Word} {k : Nat} {rest : List HostEvent} {i : Instr}
    (hs : s.host = .element n k :: rest) (hi : s.elementRow = some i) : step s = exec i s :=
  step_of_fetch_run (by simp only [fetch, hs, hi])

/-- Settles O8: the row fetched is the one the decoder reads at the element. -/
theorem stepRunsDecodedElement : Obligations.StepRunsDecodedElement := by
  refine ⟨fun s n rest i hs h4 hn hi => step_of_elementRow hs ?_,
    fun s n k rest o hs hn hb hc => step_of_elementRow hs ?_⟩
  · simp only [State.elementRow, atHeader_of_host hs h4 hn, hi, Except.toOption]
  · simp only [State.elementRow, atHeader_eq_none_of_host hs, atOption_of_host hs hn hb hc]

/-- A command answers a state or faults: of the two ways to have no next state, refusal is not one of a command's. -/
theorem exec_command_ne_refused {i : Instr} (hc : i.isCommand = true) (s : State) (r : Refusal) :
    exec i s ≠ .refused r := by
  intro h
  have setterAnswers {ok : Bool} {m : Message} : setter ok m s ≠ .refused r := by
    rw [setter_eq]
    exact nofun
  cases i with
  | msgClear => exact setterAnswers (ok := true) (m := .cleared) h
  | setType | setMid | setToken | setCode | addOption | setPayload => exact setterAnswers h
  | isEmpty | getType | getMid | getToken | getCodeClass | getCodeDetail | optCount | getPayload => cases h
  | optGet k => rcases execOptGet_cases k s with ⟨-, he⟩ | ⟨_, he⟩ <;> cases he.symm.trans h
  | bufWr a d => cases (execBufWr_eq a d s).symm.trans h
  | bufRd a k => cases (execBufRd_eq a k s).symm.trans h
  | parse n => rcases execParse_cases n s with ⟨-, he⟩ | ⟨-, he⟩ <;> cases he.symm.trans h
  | parseTmid n =>
    obtain ⟨t, he, -⟩ := execParseTmid_cases n s
    cases he.symm.trans h
  | serialize cap =>
    rcases execSerialize_cases cap s with ⟨-, he⟩ | ⟨_, -, he⟩ | ⟨-, -, -, -, -, he⟩ <;> cases he.symm.trans h
  | wireHeader | wirePayloadMarker | wireReservedDelta | wireReservedLength | wireOption => cases hc

/-- Settles O13: a step runs a command, a `PARSE` by the name of one of its elements (`parseIsTheRunOfItsElements`), or
no instruction at all. -/
theorem stepIsNeverRefused : Obligations.StepIsNeverRefused := by
  intro s r h
  rcases fetch_cases s with ⟨-, hf⟩ | ⟨rest, -, hf⟩ | ⟨c, rest, -, -, hf⟩ | ⟨c, i, rest, -, hd, hf⟩ |
    ⟨n, k, rest, i, hs, -, -⟩ | ⟨n, k, rest, hs, -, -⟩
  · cases (step_of_fetch_done hf).symm.trans h
  · cases (step_of_fetch_done hf).symm.trans h
  · cases (step_of_fetch_done hf).symm.trans h
  · exact exec_command_ne_refused (isCommand_of_decodeCommand hd) _ r ((step_of_fetch_run hf).symm.trans h)
  · exact exec_command_ne_refused rfl _ r ((parseIsTheRunOfItsElements n k s rest hs).symm.trans h)
  · exact exec_command_ne_refused rfl _ r ((parseIsTheRunOfItsElements n k s rest hs).symm.trans h)

end Sys2Proof.Machine
end

section
/-! SUPPORT. The wire-format rows (30_encoding R81 to R97, 40_parse R122 to R128): what a row does where a `PARSE` stands
at its element, as the end of that parse (log 1). -/

namespace Sys2Proof.Machine

/-! ### How a row ends, by what the parse came to (R128, R129) -/

section
variable {i : Instr} {s : State} {rest : List HostEvent}

theorem endsCleared_of_endParse {x : Status} (h : exec i s = .next ({ s with host := rest }.endParse (.error x))) :
    EndsCleared i s x.code rest :=
  ⟨_, h, ⟨rfl, rfl, rfl, rfl⟩, cleared_isCleared, ⟨rfl, fun _ => rfl⟩, rfl⟩

theorem delivers_of_endParse {m : Message} (h : exec i s = .next ({ s with host := rest }.endParse (.ok m))) :
    Delivers i s m rest :=
  ⟨_, h, ⟨rfl, rfl, rfl, rfl⟩, rfl, ⟨rfl, fun _ => rfl⟩, rfl⟩

theorem continues_of_endParse {o : OptLoop}
    (h : exec i s = .next ({ s with host := rest }.endParse (optionsFrom s.dbuf o))) : Continues i s o rest :=
  ⟨fun _ hm => delivers_of_endParse (hm ▸ h), fun _ hx => endsCleared_of_endParse (hx ▸ h)⟩

/-- A parse that goes on at the end of the datagram has decoded the whole message, one without a payload. -/
theorem Continues.delivers_at_end {o : OptLoop} (h : Continues i s o rest) (hend : o.pos.lim ≤ o.pos.cur) :
    Delivers i s (o.message []) rest :=
  h.1 _ (optionsFrom_at_end hend)

end

/-! ### The header row (R81, R122, R123) -/

/-- Settles O50: the two errors and the success of the header's element, and behind a token that ends the datagram there
are no options. -/
theorem wireHeaderResult : Obligations.WireHeaderResult := by
  intro t k code mid s n rest hs h4 hn
  have hrun {r : Except Status OptLoop} (hr : headerElement t k code mid s.dbuf n.toNat = r) :
      exec (.wireHeader t k code mid) s = .next ({ s with host := rest }.endParse (r.bind (optionsFrom s.dbuf))) :=
    hr ▸ runAtHeader_of_some (atHeader_of_host hs h4 hn)
  have hcont (hk : k.toNat ≤ 8) (hle : 4 + k.toNat ≤ n.toNat) :=
    continues_of_endParse (hrun (headerElement_eq_ok.mpr ⟨hk, hle, rfl⟩))
  refine ⟨fun hk => ?_, fun hk hlt => ?_, hcont, fun hk heq => ?_⟩
  · exact endsCleared_of_endParse (x := .badTokenLength) (hrun (headerElement_eq_error.mpr (.inl ⟨hk, rfl⟩)))
  · exact endsCleared_of_endParse (x := .truncatedToken) (hrun (headerElement_eq_error.mpr (.inr ⟨hk, hlt, rfl⟩)))
  · have hlen := Memory.readBytes_length s.dbuf 4 k.toNat
    refine ⟨_, (hcont hk heq.ge).delivers_at_end heq.le, rfl, rfl, rfl, rfl, ?_, rfl, rfl⟩
    have htok := tokenRegister_take (s.dbuf.readBytes 4 k.toNat) (hlen.trans_le hk)
    rwa [hlen] at htok

/-! ### The rows at an option position (R94, R96, R124 to R128) -/

/-- The delta of an option at this position with delta nibble `dn` (R125). -/
def OptLoop.deltaHere (o : OptLoop) (m : Memory) (dn : Nibble) : Nat :=
  extVal dn (m.readInt (o.pos.cur + 1) (extLen dn))

/-- The value length of an option at this position with header byte `dn ln` (R125). -/
def OptLoop.lengthHere (o : OptLoop) (m : Memory) (dn ln : Nibble) : Nat :=
  extVal ln (m.readInt (o.pos.cur + 1 + extLen dn) (extLen ln))

/-- Where the value of an option at this position with header byte `dn ln` begins (R126). -/
def OptLoop.valueStart (o : OptLoop) (dn ln : Nibble) : Nat := o.pos.cur + 1 + extLen dn + extLen ln

/-- The variables of the parse behind an option at this position with header byte `dn ln`. -/
def OptLoop.behindOption (o : OptLoop) (m : Memory) (dn ln : Nibble) : OptLoop :=
  let num := o.prev + BitVec.ofNat Config.optNumW (o.deltaHere m dn)
  { o with
    pos := ⟨o.valueStart dn ln + o.lengthHere m dn ln, o.pos.lim⟩
    prev := num
    opts := o.opts ++ [{ num := num, val := m.readBytes (o.valueStart dn ln) (o.lengthHere m dn ln) }] }

/-- An option's element is decoded where all its bytes lie below the limit, and truncated otherwise. -/
theorem optionElement_eq {dn ln : Nibble} {m : Memory} {o : OptLoop} (hdn : dn ≠ 15) (hln : ln ≠ 15) :
    optionElement dn ln m o =
      if o.valueStart dn ln + o.lengthHere m dn ln ≤ o.pos.lim then .ok (o.behindOption m dn ln)
      else .error .truncatedOption := by
  split_ifs with hle
  · have hend : o.pos.cur + 1 + extLen dn + extLen ln ≤ o.pos.lim := le_of_add_le_left hle
    exact optionElement_of_reads hdn hln
      (readExt_eq_some.mpr ⟨.inr (le_of_add_le_left hend), rfl, rfl⟩)
      (readExt_eq_some.mpr ⟨.inr hend, rfl, rfl⟩)
      (rdBytes_eq_some.mpr ⟨hle, rfl, rfl⟩)
  · cases he : optionElement dn ln m o with
    | error x => rw [optionElement_error_eq hdn hln he]
    | ok o' =>
      obtain ⟨-, -, delta, length, c1, c2, h1, h2, hend, -⟩ := optionElement_eq_ok he
      obtain ⟨-, -, rfl⟩ := readExt_eq_some.mp h1
      obtain ⟨-, rfl, rfl⟩ := readExt_eq_some.mp h2
      exact absurd hend hle

/-- Settles O51: the option's bytes end at or before the limit, and the parse goes on behind them, or beyond it. -/
theorem wireOptionResult : Obligations.WireOptionResult := by
  intro dn ln s n k rest o hs hn hb hc hdn hln
  have hlim := beforeOption_lim hb
  have hrun {r : Except Status OptLoop} (hr : optionElement dn ln s.dbuf o = r) :
      exec (.wireOption dn ln) s = .next ({ s with host := rest }.endParse (r.bind (optionsFrom s.dbuf))) :=
    hr ▸ runAtOption_of_some (atOption_of_host hs hn hb hc)
  have hcont (hle : o.valueStart dn ln + o.lengthHere s.dbuf dn ln ≤ n.toNat) :
      Continues (.wireOption dn ln) s (o.behindOption s.dbuf dn ln) rest :=
    continues_of_endParse (hrun ((optionElement_eq hdn hln).trans (if_pos (hle.trans_eq hlim.symm))))
  refine ⟨hlim, fun hgt => ?_, fun hle => hlim ▸ hcont hle, fun heq => ?_⟩
  · have hgt' := Nat.not_le_of_lt (hlim.trans_lt hgt)
    exact endsCleared_of_endParse (x := .truncatedOption) (hrun ((optionElement_eq hdn hln).trans (if_neg hgt')))
  · exact ⟨_, (hcont heq.le).delivers_at_end (hlim.trans heq.symm).le, rfl, rfl, rfl, rfl, rfl, rfl⟩

/-- Settles O52: the payload is what stands behind the marker, and it makes the message whole. -/
theorem wirePayloadMarkerResult : Obligations.WirePayloadMarkerResult := by
  intro s n k rest o hs hn hb hc
  have hlim := beforeOption_lim hb
  have hrun {r : Except Status Bytes} (hr : markerElement s.dbuf o = r) :
      exec .wirePayloadMarker s = .next ({ s with host := rest }.endParse (r.map o.message)) :=
    hr ▸ runAtOption_of_some (atOption_of_host hs hn hb hc)
  refine ⟨hlim, fun heq => ?_, fun hlt => ?_⟩
  · exact endsCleared_of_endParse (x := .missingPayloadAfterMarker) (hrun (if_pos (heq.trans hlim.symm)))
  · have hpay : markerElement s.dbuf o = .ok (s.dbuf.readBytes (o.pos.cur + 1) (n.toNat - (o.pos.cur + 1))) :=
      markerElement_eq_ok.mpr ⟨(hlt.trans_eq hlim.symm).ne, by rw [hlim]⟩
    exact ⟨_, delivers_of_endParse (hrun hpay), rfl, rfl, rfl, rfl, rfl, rfl,
      fun j => tokenRegister_getElem o.tok j.val j.isLt⟩

/-- Settles O53: neither row looks at a byte of the buffer. -/
theorem wireReservedResults : Obligations.WireReservedResults := by
  intro x s n k rest o hs hn hb hc
  have hrun {f : OptLoop → Except Status Message} := runAtOption_of_some (f := f) (atOption_of_host hs hn hb hc)
  exact ⟨endsCleared_of_endParse (x := .badOptionDelta) hrun, endsCleared_of_endParse (x := .badOptionLength) hrun⟩

end Sys2Proof.Machine
end
